-- ==== Sys2Proof/Word.lean ====
section
/-! DEFINITION. The word types of the interpreter core (spec/00_scope.md R7, R9; spec/30_encoding.md R81).
All architectural values are unsigned; nothing here is signed. -/

namespace Sys2Proof

/-- An 8-bit value: a general register, a timer, a byte of memory (R21, R29, R30, R50). -/
abbrev Byte := BitVec 8

/-- A 16-bit value: an instruction word, PC, I, a stack entry (R24, R25, R28, R80). -/
abbrev Word := BitVec 16

/-- A 4-bit field: a register index x or y, a count n, a key number (R81, R213, R217). -/
abbrev Nib := BitVec 4

/-- The 12-bit address field nnn (R81). -/
abbrev Addr := BitVec 12

end Sys2Proof
end

