-- ==== Sys2Proof/Config.lean ====
section
/-! DEFINITION. What is fixed per instance (spec/00_scope.md R8) and the free values of the model: the answers
of the collaborator ports (spec/60_exceptions.md R215 to R218; spec/93_implementation_defined.md U11 to U13). -/

namespace Sys2Proof

/-- `SHIFT_SOURCE` (R8, R148, R150, U2): which register `8xy6` and `8xyE` shift. -/
inductive ShiftSource where
  | vy
  | vx
deriving DecidableEq, Repr

/-- `ODD_PC_FETCH` (R8, R59, R101, U1): what a fetch at an odd PC does. -/
inductive OddPcFetch where
  | read
  | fault
deriving DecidableEq, Repr

/-- `SPRITE_EDGE` (R8, R170, U17): what happens to sprite pixels past the screen edge. -/
inductive SpriteEdge where
  | clip
  | wrap
deriving DecidableEq, Repr

/-- The configuration of one instance (R8): "Each is fixed per instance at construction and never changes while the
instance runs." The legal values are checked by `Config.wellFormed` (WellFormed.lean). -/
structure Config where
  /-- `PROGRAM_ORIGIN`: 0x200 or 0x600 (R8, D44); the boot sequence loads there (R232). -/
  programOrigin : Word
  /-- `ENTRY_PC`: PC after reset (R8, R231, D3). -/
  entryPc : Word
  /-- `FONT_BASE`: address of the glyph of digit 0 (R8, R57, D14). -/
  fontBase : Word
  /-- `SHIFT_SOURCE`. -/
  shiftSource : ShiftSource
  /-- `LOGIC_RESETS_VF`: `8xy1` to `8xy3` write 0 to VF (R143, D16). -/
  logicResetsVf : Bool
  /-- `LOADSTORE_INCREMENTS_I`: `Fx55` and `Fx65` advance I (R187, R188, D17). -/
  loadstoreIncrementsI : Bool
  /-- `ODD_PC_FETCH`. -/
  oddPcFetch : OddPcFetch
  /-- `SPRITE_EDGE`. -/
  spriteEdge : SpriteEdge
  /-- `DISPLAY_W`: a positive integer (D36). -/
  displayW : Nat
  /-- `DISPLAY_H`: a positive integer (D36). -/
  displayH : Nat
deriving DecidableEq, Repr

/-- The reference configuration (the "reference" column of R8; R15). -/
def Config.reference : Config where
  programOrigin := 0x200#16
  entryPc := 0x200#16
  fontBase := 0x000#16
  shiftSource := .vx
  logicResetsVf := false
  loadstoreIncrementsI := false
  oddPcFetch := .read
  spriteEdge := .clip
  displayW := 64
  displayH := 32

/-- FREE VALUE (log entry 3). The answer of `random.byte()` when it is the `k`-th port call of the run (R218, U11):
"answers any value 0 to 255". -/
opaque Config.randomByte (k : Nat) : Byte

/-- FREE VALUE (log entry 3). The answer of `input.is_key_down` when it is the `k`-th port call of the run
(R217, U13). -/
opaque Config.keyDown (k : Nat) : Bool

/-- FREE VALUE (log entry 3). The answer of `display.plot` when it is the `k`-th port call of the run (R216, U12):
"whatever the display answers is ORed into VF". -/
opaque Config.plotCollides (k : Nat) : Bool

end Sys2Proof
end

