-- ==== Sys2Proof/Machine/State.lean ====
section
/-! DEFINITION. The state of one core instance (spec/10_state.md R20) as plain data, the machine right after reset
(R37), and the closed reasons a step can stop. -/

namespace Sys2Proof.Machine

/-- Memory as (address, byte) pairs in one canonical form (`Memory.wf`, Ops.lean): addresses strictly rising and below
0x1000, no entry equal to what an unlisted address reads as (log entry 8). -/
abbrev Memory := List Host.Cell

/-- The five error kinds of spec/60_exceptions.md R200. -/
inductive ErrorKind where
  /-- Code 1: an access above 0xFFF, or an odd fetch under `ODD_PC_FETCH = fault`. -/
  | addressError
  /-- Code 2: `load_program` would write past 0xFFF; never raised by `step()` (R222). -/
  | programTooLargeError
  /-- Code 3: `2nnn` with 16 live return addresses. -/
  | stackOverflowError
  /-- Code 4: `00EE` with an empty stack. -/
  | stackUnderflowError
  /-- Code 5: the fetched word is illegal (R86). -/
  | unknownOpcodeError
deriving DecidableEq, Repr

/-- `info = (pc, value)` of a step error (R202). -/
structure ErrorInfo where
  /-- The address of the instruction. -/
  pc : Word
  /-- The faulting address, the fetched word, or 0. -/
  value : Nat
deriving DecidableEq, Repr

/-- The execution state `ES` (R31). `Fetching` and `Executing` are phases inside one `step()` that no observer sees
(R32), so they are not values of it. -/
inductive ExecState where
  /-- Ready to execute the instruction at PC. -/
  | idle
  /-- An `Fx0A` is waiting for a key and will write `V[x]`. -/
  | awaitingKey (x : Nib)
  /-- An error ended the last operation. -/
  | halted (e : ErrorKind) (info : ErrorInfo)
deriving DecidableEq, Repr

/-- One call on a collaborator port with its answer (R215 to R218). -/
inductive PortCall where
  /-- `display.clear()` (R215). -/
  | clear
  /-- `display.plot(x, y, on) -> collided` (R216). -/
  | plot (x y : Nat) (on collided : Bool)
  /-- `input.is_key_down(k) -> down` (R217). -/
  | isKeyDown (k : Nib) (down : Bool)
  /-- `random.byte() -> r` (R218). -/
  | randomByte (r : Byte)
deriving DecidableEq, Repr

/-- The state: the tuple `(MEM, V, I, PC, SP, STACK, DT, ST, ES)` of R20, the instance's configuration (R8; log
entry 1) and, as the model's own field, the port calls made so far (log entry 4). -/
structure State where
  /-- `MEM` (R33, R50). -/
  mem : Memory
  /-- `V[0..15]` (R21). -/
  v : Vector Byte 16
  /-- `I`, 16 bits stored, 12 bits used (R24). -/
  i : Word
  /-- `PC` (R25). -/
  pc : Word
  /-- `SP`, the stack depth (R27). -/
  sp : Byte
  /-- `STACK[0..15]` (R28). -/
  stack : Vector Word 16
  /-- `DT` (R29). -/
  dt : Byte
  /-- `ST` (R30). -/
  st : Byte
  /-- `ES` (R31). -/
  es : ExecState
  /-- The configuration: no operation changes it (R8). -/
  cfg : Config
  /-- The port calls made so far, oldest first; its length is the counter that indexes the free answers. -/
  calls : List PortCall
deriving DecidableEq, Repr

/-- The reset values of R37 for an instance configured as `c`: everything zero, `PC = ENTRY_PC`, `ES = Idle`. -/
def State.resetWith (c : Config) : State where
  mem := []
  v := Vector.replicate 16 0#8
  i := 0#16
  pc := c.entryPc
  sp := 0#8
  stack := Vector.replicate 16 0#16
  dt := 0#8
  st := 0#8
  es := .idle
  cfg := c
  calls := []

/-- The machine right after reset (R37, R230), in the reference configuration (R8; log entry 2). -/
def State.reset : State := State.resetWith Config.reference

/-- Why the machine stops with no next state. The errors of R200 are NOT faults of the model: the spec describes their
entry, so they are next states with `ES = Halted` (log entry 5). -/
inductive Fault where
  /-- Raised by `2nnn` and `00EE` when SP holds 17 to 255. The spec gives these values no effect: they "are never
  produced" (R27). SAFE: no state that keeps the invariant `SP <= 16` (R40) raises it. -/
  | stackPointerOutOfRange
deriving DecidableEq, Repr

/-- Why an instruction is refused. -/
inductive Refusal where
  /-- Raised by an arm of `exec` for an instruction with no meaning yet; no arm does. SAFE. -/
  | notModelled (mnemonic : String)
deriving DecidableEq, Repr

/-- The outcome of one instruction or step. -/
abbrev Result := Host.Outcome State Fault Refusal

end Sys2Proof.Machine
end

