-- ==== Sys2Proof/Machine/Flags.lean ====
section
/-! DEFINITION. Every flag computation (spec/10_state.md R35; spec/43_alu.md R151, R143 to R150). VF is the only
flag. -/

namespace Sys2Proof.Machine

/-- A flag value in VF: 1 if the condition holds, else 0. -/
def flagByte (c : Bool) : Byte := if c then 1#8 else 0#8

/-- Carry of an addition: 1 iff `a + b > 255` (R146, R151). -/
def carryFlag (a b : Byte) : Byte := flagByte (decide (a.toNat + b.toNat > 255))

/-- NOT borrow of `a - b`: 1 iff `a >= b` (R147, R149, R151). -/
def notBorrowFlag (a b : Byte) : Byte := flagByte (decide (a.toNat ≥ b.toNat))

/-- The bit shifted out at the right, `s[0]` (R148). -/
def shiftedOutRight (b : Byte) : Byte := flagByte (b.getLsbD 0)

/-- The bit shifted out at the left, `s[7]` (R150). -/
def shiftedOutLeft (b : Byte) : Byte := flagByte (b.getLsbD 7)

/-- What `8xy1` to `8xy3` write to VF: 0 when `LOGIC_RESETS_VF`, otherwise nothing (R143). -/
def logicFlag (c : Config) : Option Byte := if c.logicResetsVf then some 0#8 else none

/-- The collision flag of `Dxyn`: 1 if any plot answered collided (R170). -/
def collisionFlag (hit : Bool) : Byte := flagByte hit

end Sys2Proof.Machine
end

