-- ==== Sys2Proof/Syntax.lean ====
section
/-! DEFINITION. The 34 instructions (spec/30_encoding.md R84, spec/opcode_table.json), one constructor per row.
Operand fields carry their widths (R81), so a register index outside V0 to VF cannot be written (R21, U6). -/

namespace Sys2Proof

/-- One instruction; each constructor's docstring names its word pattern and its rule. -/
inductive Instr where
  /-- `00E0` CLS (R120). -/
  | cls
  /-- `00EE` RET (R121). -/
  | ret
  /-- `1nnn` JP addr (R122). -/
  | jp (nnn : Addr)
  /-- `2nnn` CALL addr (R123). -/
  | call (nnn : Addr)
  /-- `3xkk` SE Vx, byte (R130). -/
  | seImm (x : Nib) (kk : Byte)
  /-- `4xkk` SNE Vx, byte (R131). -/
  | sneImm (x : Nib) (kk : Byte)
  /-- `5xy0` SE Vx, Vy (R132). -/
  | seReg (x y : Nib)
  /-- `6xkk` LD Vx, byte (R140). -/
  | ldImm (x : Nib) (kk : Byte)
  /-- `7xkk` ADD Vx, byte (R141). -/
  | addImm (x : Nib) (kk : Byte)
  /-- `8xy0` LD Vx, Vy (R142). -/
  | ldReg (x y : Nib)
  /-- `8xy1` OR Vx, Vy (R143). -/
  | orReg (x y : Nib)
  /-- `8xy2` AND Vx, Vy (R144). -/
  | andReg (x y : Nib)
  /-- `8xy3` XOR Vx, Vy (R145). -/
  | xorReg (x y : Nib)
  /-- `8xy4` ADD Vx, Vy (R146). -/
  | addReg (x y : Nib)
  /-- `8xy5` SUB Vx, Vy (R147). -/
  | sub (x y : Nib)
  /-- `8xy6` SHR Vx, Vy (R148). -/
  | shr (x y : Nib)
  /-- `8xy7` SUBN Vx, Vy (R149). -/
  | subn (x y : Nib)
  /-- `8xyE` SHL Vx, Vy (R150). -/
  | shl (x y : Nib)
  /-- `9xy0` SNE Vx, Vy (R133). -/
  | sneReg (x y : Nib)
  /-- `Annn` LD I, addr (R160). -/
  | ldI (nnn : Addr)
  /-- `Bnnn` JP V0, addr (R161). -/
  | jpV0 (nnn : Addr)
  /-- `Cxkk` RND Vx, byte (R162). -/
  | rnd (x : Nib) (kk : Byte)
  /-- `Dxyn` DRW Vx, Vy, nibble (R170). -/
  | drw (x y n : Nib)
  /-- `Ex9E` SKP Vx (R171). -/
  | skp (x : Nib)
  /-- `ExA1` SKNP Vx (R172). -/
  | sknp (x : Nib)
  /-- `Fx07` LD Vx, DT (R180). -/
  | ldVxDt (x : Nib)
  /-- `Fx0A` LD Vx, K (R181). -/
  | ldVxK (x : Nib)
  /-- `Fx15` LD DT, Vx (R182). -/
  | ldDtVx (x : Nib)
  /-- `Fx18` LD ST, Vx (R183). -/
  | ldStVx (x : Nib)
  /-- `Fx1E` ADD I, Vx (R184). -/
  | addI (x : Nib)
  /-- `Fx29` LD F, Vx (R185). -/
  | ldF (x : Nib)
  /-- `Fx33` LD B, Vx (R186). -/
  | ldB (x : Nib)
  /-- `Fx55` LD [I], Vx (R187). -/
  | ldMemVx (x : Nib)
  /-- `Fx65` LD Vx, [I] (R188). -/
  | ldVxMem (x : Nib)
deriving DecidableEq, Repr

end Sys2Proof
end

