-- ==== Sys2Proof/Decode.lean ====
section
/-! DEFINITION. The decoder (spec/30_encoding.md R80, R81, R85) and, after it, the encoder (R83, R84). -/

namespace Sys2Proof

/-- Why bytes decode to no instruction. -/
inductive DecodeError where
  /-- `Unknown` of R85: the word is illegal (R86). -/
  | unknown (w : Word)
  /-- Fewer than two bytes were given; an instruction is one 16-bit word (R80). -/
  | truncated
deriving DecidableEq, Repr

/-- `op = w[15:12]` (R81). -/
def fieldOp (w : Word) : Nib := w.extractLsb' 12 4

/-- `x = w[11:8]` (R81). -/
def fieldX (w : Word) : Nib := w.extractLsb' 8 4

/-- `y = w[7:4]` (R81). -/
def fieldY (w : Word) : Nib := w.extractLsb' 4 4

/-- `n = w[3:0]` (R81). -/
def fieldN (w : Word) : Nib := w.extractLsb' 0 4

/-- `kk = w[7:0]` (R81). -/
def fieldKK (w : Word) : Byte := w.extractLsb' 0 8

/-- `nnn = w[11:0]` (R81). -/
def fieldNNN (w : Word) : Addr := w.extractLsb' 0 12

/-- Class 8 of R85, selected by `n`. -/
def decodeAlu (w : Word) (x y : Nib) : Except DecodeError Instr :=
  match fieldN w with
  | 0x0#4 => .ok (.ldReg x y)
  | 0x1#4 => .ok (.orReg x y)
  | 0x2#4 => .ok (.andReg x y)
  | 0x3#4 => .ok (.xorReg x y)
  | 0x4#4 => .ok (.addReg x y)
  | 0x5#4 => .ok (.sub x y)
  | 0x6#4 => .ok (.shr x y)
  | 0x7#4 => .ok (.subn x y)
  | 0xE#4 => .ok (.shl x y)
  | _ => .error (.unknown w)

/-- Class E of R85, selected by `kk`. -/
def decodeKey (w : Word) (x : Nib) : Except DecodeError Instr :=
  match fieldKK w with
  | 0x9E#8 => .ok (.skp x)
  | 0xA1#8 => .ok (.sknp x)
  | _ => .error (.unknown w)

/-- Class F of R85, selected by `kk`. -/
def decodeMisc (w : Word) (x : Nib) : Except DecodeError Instr :=
  match fieldKK w with
  | 0x07#8 => .ok (.ldVxDt x)
  | 0x0A#8 => .ok (.ldVxK x)
  | 0x15#8 => .ok (.ldDtVx x)
  | 0x18#8 => .ok (.ldStVx x)
  | 0x1E#8 => .ok (.addI x)
  | 0x29#8 => .ok (.ldF x)
  | 0x33#8 => .ok (.ldB x)
  | 0x55#8 => .ok (.ldMemVx x)
  | 0x65#8 => .ok (.ldVxMem x)
  | _ => .error (.unknown w)

/-- `decode(w)` of R85: total on all 65536 words; it depends on the word alone. The last line is never reached: the
lines above it name all 16 values of the first nibble. -/
def decodeWord (w : Word) : Except DecodeError Instr :=
  let x := fieldX w
  let y := fieldY w
  match fieldOp w with
  | 0x0#4 =>
    if w = 0x00E0#16 then .ok .cls
    else if w = 0x00EE#16 then .ok .ret
    else .error (.unknown w)
  | 0x1#4 => .ok (.jp (fieldNNN w))
  | 0x2#4 => .ok (.call (fieldNNN w))
  | 0x3#4 => .ok (.seImm x (fieldKK w))
  | 0x4#4 => .ok (.sneImm x (fieldKK w))
  | 0x5#4 => if fieldN w = 0x0#4 then .ok (.seReg x y) else .error (.unknown w)
  | 0x6#4 => .ok (.ldImm x (fieldKK w))
  | 0x7#4 => .ok (.addImm x (fieldKK w))
  | 0x8#4 => decodeAlu w x y
  | 0x9#4 => if fieldN w = 0x0#4 then .ok (.sneReg x y) else .error (.unknown w)
  | 0xA#4 => .ok (.ldI (fieldNNN w))
  | 0xB#4 => .ok (.jpV0 (fieldNNN w))
  | 0xC#4 => .ok (.rnd x (fieldKK w))
  | 0xD#4 => .ok (.drw x y (fieldN w))
  | 0xE#4 => decodeKey w x
  | 0xF#4 => decodeMisc w x
  | _ => .error (.unknown w)

/-- A big-endian word from its two bytes: `(MEM[addr] << 8) | MEM[addr+1]`, "byte at addr is high byte" (R52, R58,
R80). -/
def wordOfBytes (hi lo : Byte) : Word := hi.setWidth 16 <<< 8 ||| lo.setWidth 16

/-- Decode the instruction at the head of a byte sequence: one word, high byte first (R80), and the bytes after it.
Total on any bytes. -/
def decode : List Byte → Except DecodeError (Instr × List Byte)
  | hi :: lo :: rest =>
    match decodeWord (wordOfBytes hi lo) with
    | .ok i => .ok (i, rest)
    | .error e => .error e
  | _ => .error .truncated

/-- Format `nnn`: `op[4] nnn[12]` (R83). -/
def formatNnn (op : Nib) (nnn : Addr) : Word :=
  op.setWidth 16 <<< 12 ||| nnn.setWidth 16

/-- Formats `xkk` and `xf`: `op[4] x[4] kk[8]` (R83). -/
def formatXkk (op x : Nib) (kk : Byte) : Word :=
  op.setWidth 16 <<< 12 ||| x.setWidth 16 <<< 8 ||| kk.setWidth 16

/-- Formats `xy0`, `xyf` and `xyn`: `op[4] x[4] y[4] n[4]` (R83). -/
def formatXyn (op x y n : Nib) : Word :=
  op.setWidth 16 <<< 12 ||| x.setWidth 16 <<< 8 ||| y.setWidth 16 <<< 4 ||| n.setWidth 16

/-- The word of an instruction, by the formats of R83 and the map of R84. -/
def encode : Instr → Word
  | .cls => 0x00E0#16
  | .ret => 0x00EE#16
  | .jp nnn => formatNnn 0x1#4 nnn
  | .call nnn => formatNnn 0x2#4 nnn
  | .seImm x kk => formatXkk 0x3#4 x kk
  | .sneImm x kk => formatXkk 0x4#4 x kk
  | .seReg x y => formatXyn 0x5#4 x y 0x0#4
  | .ldImm x kk => formatXkk 0x6#4 x kk
  | .addImm x kk => formatXkk 0x7#4 x kk
  | .ldReg x y => formatXyn 0x8#4 x y 0x0#4
  | .orReg x y => formatXyn 0x8#4 x y 0x1#4
  | .andReg x y => formatXyn 0x8#4 x y 0x2#4
  | .xorReg x y => formatXyn 0x8#4 x y 0x3#4
  | .addReg x y => formatXyn 0x8#4 x y 0x4#4
  | .sub x y => formatXyn 0x8#4 x y 0x5#4
  | .shr x y => formatXyn 0x8#4 x y 0x6#4
  | .subn x y => formatXyn 0x8#4 x y 0x7#4
  | .shl x y => formatXyn 0x8#4 x y 0xE#4
  | .sneReg x y => formatXyn 0x9#4 x y 0x0#4
  | .ldI nnn => formatNnn 0xA#4 nnn
  | .jpV0 nnn => formatNnn 0xB#4 nnn
  | .rnd x kk => formatXkk 0xC#4 x kk
  | .drw x y n => formatXyn 0xD#4 x y n
  | .skp x => formatXkk 0xE#4 x 0x9E#8
  | .sknp x => formatXkk 0xE#4 x 0xA1#8
  | .ldVxDt x => formatXkk 0xF#4 x 0x07#8
  | .ldVxK x => formatXkk 0xF#4 x 0x0A#8
  | .ldDtVx x => formatXkk 0xF#4 x 0x15#8
  | .ldStVx x => formatXkk 0xF#4 x 0x18#8
  | .addI x => formatXkk 0xF#4 x 0x1E#8
  | .ldF x => formatXkk 0xF#4 x 0x29#8
  | .ldB x => formatXkk 0xF#4 x 0x33#8
  | .ldMemVx x => formatXkk 0xF#4 x 0x55#8
  | .ldVxMem x => formatXkk 0xF#4 x 0x65#8

/-- The instruction's row of `opcode_table.json` as (mask, match). -/
def Instr.tableRow : Instr → Word × Word
  | .cls => (0xFFFF#16, 0x00E0#16)
  | .ret => (0xFFFF#16, 0x00EE#16)
  | .jp _ => (0xF000#16, 0x1000#16)
  | .call _ => (0xF000#16, 0x2000#16)
  | .seImm _ _ => (0xF000#16, 0x3000#16)
  | .sneImm _ _ => (0xF000#16, 0x4000#16)
  | .seReg _ _ => (0xF00F#16, 0x5000#16)
  | .ldImm _ _ => (0xF000#16, 0x6000#16)
  | .addImm _ _ => (0xF000#16, 0x7000#16)
  | .ldReg _ _ => (0xF00F#16, 0x8000#16)
  | .orReg _ _ => (0xF00F#16, 0x8001#16)
  | .andReg _ _ => (0xF00F#16, 0x8002#16)
  | .xorReg _ _ => (0xF00F#16, 0x8003#16)
  | .addReg _ _ => (0xF00F#16, 0x8004#16)
  | .sub _ _ => (0xF00F#16, 0x8005#16)
  | .shr _ _ => (0xF00F#16, 0x8006#16)
  | .subn _ _ => (0xF00F#16, 0x8007#16)
  | .shl _ _ => (0xF00F#16, 0x800E#16)
  | .sneReg _ _ => (0xF00F#16, 0x9000#16)
  | .ldI _ => (0xF000#16, 0xA000#16)
  | .jpV0 _ => (0xF000#16, 0xB000#16)
  | .rnd _ _ => (0xF000#16, 0xC000#16)
  | .drw _ _ _ => (0xF000#16, 0xD000#16)
  | .skp _ => (0xF0FF#16, 0xE09E#16)
  | .sknp _ => (0xF0FF#16, 0xE0A1#16)
  | .ldVxDt _ => (0xF0FF#16, 0xF007#16)
  | .ldVxK _ => (0xF0FF#16, 0xF00A#16)
  | .ldDtVx _ => (0xF0FF#16, 0xF015#16)
  | .ldStVx _ => (0xF0FF#16, 0xF018#16)
  | .addI _ => (0xF0FF#16, 0xF01E#16)
  | .ldF _ => (0xF0FF#16, 0xF029#16)
  | .ldB _ => (0xF0FF#16, 0xF033#16)
  | .ldMemVx _ => (0xF0FF#16, 0xF055#16)
  | .ldVxMem _ => (0xF0FF#16, 0xF065#16)

/-- The bytes of a word as memory holds them, high byte first (R58, R80). -/
def bytesOfWord (w : Word) : List Byte := [w.extractLsb' 8 8, w.extractLsb' 0 8]

/-- The bytes of an instruction. -/
def encodeBytes (i : Instr) : List Byte := bytesOfWord (encode i)

/-- The opcode table's numbering of an instruction's bits: bit 0 is the least significant bit of the one word, and the
bits above `nbits` are 0. -/
def tableWord (nbits w : Nat) : Word := BitVec.ofNat 16 (w % 2 ^ nbits)

/-- The instruction the decoder reads from a word given as the opcode table numbers its bits: the word is laid out
high byte first (R58) and decoded. -/
def decodeTableWord (nbits w : Nat) : Option Instr :=
  match decode (bytesOfWord (tableWord nbits w)) with
  | .ok (i, _) => some i
  | .error _ => none

/-! ### Assembly text (R90) -/

/-- A hexadecimal digit, as R90 writes register indices and numbers. -/
def hexDigit (d : Nib) : String :=
  match d.toNat with
  | 0 => "0" | 1 => "1" | 2 => "2" | 3 => "3" | 4 => "4" | 5 => "5" | 6 => "6" | 7 => "7"
  | 8 => "8" | 9 => "9" | 10 => "A" | 11 => "B" | 12 => "C" | 13 => "D" | 14 => "E" | _ => "F"

/-- A register: `V0` to `VF`. -/
def regText (x : Nib) : String := "V" ++ hexDigit x

/-- Two registers, `Vx, Vy`. -/
def regsText (x y : Nib) : String := regText x ++ ", " ++ regText y

/-- `byte`: two digits (log entry 24). -/
def byteText (kk : Byte) : String := "0x" ++ hexDigit (kk.extractLsb' 4 4) ++ hexDigit (kk.extractLsb' 0 4)

/-- `addr`: three digits (log entry 24). -/
def addrText (nnn : Addr) : String :=
  "0x" ++ hexDigit (nnn.extractLsb' 8 4) ++ hexDigit (nnn.extractLsb' 4 4) ++ hexDigit (nnn.extractLsb' 0 4)

/-- The assembly text of an instruction, one mnemonic per instruction (R90); "SHR and SHL always show Vy". -/
def Instr.assembly : Instr → String
  | .cls => "CLS"
  | .ret => "RET"
  | .jp nnn => "JP " ++ addrText nnn
  | .call nnn => "CALL " ++ addrText nnn
  | .seImm x kk => "SE " ++ regText x ++ ", " ++ byteText kk
  | .sneImm x kk => "SNE " ++ regText x ++ ", " ++ byteText kk
  | .seReg x y => "SE " ++ regsText x y
  | .ldImm x kk => "LD " ++ regText x ++ ", " ++ byteText kk
  | .addImm x kk => "ADD " ++ regText x ++ ", " ++ byteText kk
  | .ldReg x y => "LD " ++ regsText x y
  | .orReg x y => "OR " ++ regsText x y
  | .andReg x y => "AND " ++ regsText x y
  | .xorReg x y => "XOR " ++ regsText x y
  | .addReg x y => "ADD " ++ regsText x y
  | .sub x y => "SUB " ++ regsText x y
  | .shr x y => "SHR " ++ regsText x y
  | .subn x y => "SUBN " ++ regsText x y
  | .shl x y => "SHL " ++ regsText x y
  | .sneReg x y => "SNE " ++ regsText x y
  | .ldI nnn => "LD I, " ++ addrText nnn
  | .jpV0 nnn => "JP V0, " ++ addrText nnn
  | .rnd x kk => "RND " ++ regText x ++ ", " ++ byteText kk
  | .drw x y n => "DRW " ++ regsText x y ++ ", 0x" ++ hexDigit n
  | .skp x => "SKP " ++ regText x
  | .sknp x => "SKNP " ++ regText x
  | .ldVxDt x => "LD " ++ regText x ++ ", DT"
  | .ldVxK x => "LD " ++ regText x ++ ", K"
  | .ldDtVx x => "LD DT, " ++ regText x
  | .ldStVx x => "LD ST, " ++ regText x
  | .addI x => "ADD I, " ++ regText x
  | .ldF x => "LD F, " ++ regText x
  | .ldB x => "LD B, " ++ regText x
  | .ldMemVx x => "LD [I], " ++ regText x
  | .ldVxMem x => "LD " ++ regText x ++ ", [I]"

end Sys2Proof
end

