-- ==== Sys2Proof/Machine/Ops.lean ====
section
/-! DEFINITION. The named operations over memory (spec/20_memory.md), registers and stack (spec/10_state.md), the
collaborator ports (spec/60_exceptions.md R215 to R218), the PC update (spec/40_execution_cycle.md R104), taking an
error and leaving it (R204, R206), and the fetch (R101). -/

namespace Sys2Proof.Machine

/-! ### Memory -/

/-- The last address of memory, 0xFFF (R7, R50). -/
def lastAddress : Nat := 0xFFF

/-- What an address that is not listed reads as: memory resets to 0x00 (R37). -/
def Memory.unlisted : Byte := 0x00#8

/-- The byte stored at an address of memory. -/
def Memory.read : Memory → Nat → Byte
  | [], _ => Memory.unlisted
  | (b, u) :: m, a => if a = b then u else Memory.read m a

/-- Store a byte at an address of memory, keeping the canonical form. -/
def Memory.write : Memory → Nat → Byte → Memory
  | [], a, u => if u = Memory.unlisted then [] else [(a, u)]
  | (b, w) :: m, a, u =>
    if a < b then
      if u = Memory.unlisted then (b, w) :: m else (a, u) :: (b, w) :: m
    else if a = b then
      if u = Memory.unlisted then m else (b, u) :: m
    else (b, w) :: Memory.write m a u

/-- Canonical from address `lo` on: addresses rise strictly, stay in memory, and no entry is the unlisted value. -/
def Memory.wfFrom : Nat → Memory → Bool
  | _, [] => true
  | lo, (a, u) :: m =>
    decide (lo ≤ a) && decide (a ≤ lastAddress) && decide (u ≠ Memory.unlisted) && Memory.wfFrom (a + 1) m

/-- The canonical form of memory. -/
def Memory.wf (m : Memory) : Bool := Memory.wfFrom 0 m

/-- The range check of R54 on `n >= 1` bytes at `addr`: `none` when in range, else the address `AddressError`
carries, `max(addr, 0x1000)`. -/
def rangeError (addr n : Nat) : Option Nat :=
  if addr + n - 1 ≤ lastAddress then none else some (max addr (lastAddress + 1))

/-- The `n` bytes at `addr`, `addr + 1`, ..., in ascending address order (R60), with no range check. -/
def Memory.loadBytes (m : Memory) (addr : Nat) : Nat → List Byte
  | 0 => []
  | n + 1 => m.read addr :: Memory.loadBytes m (addr + 1) n

/-- Store bytes at `addr`, `addr + 1`, ..., in ascending address order (R60), with no range check. -/
def Memory.storeBytes (m : Memory) (addr : Nat) : List Byte → Memory
  | [] => m
  | b :: bs => Memory.storeBytes (m.write addr b) (addr + 1) bs

/-- The unsigned value of bytes, the first most significant (R52, R58). -/
def valueOfBytes (bs : List Byte) : Nat := bs.foldl (fun acc b => acc * 256 + b.toNat) 0

/-- The `n` bytes of a value, most significant first (R53): byte `j` is `(v >> 8(n-1-j)) & 0xFF`. -/
def bytesOfValue : Nat → Nat → List Byte
  | 0, _ => []
  | n + 1, v => BitVec.ofNat 8 (v / 256 ^ n) :: bytesOfValue n v

/-- `MemRead(addr, n)` (R11, R52, R54): the bytes as one big-endian value, or the address of the `AddressError`. -/
def memRead (m : Memory) (addr n : Nat) : Except Nat Nat :=
  match rangeError addr n with
  | some a => .error a
  | none => .ok (valueOfBytes (m.loadBytes addr n))

/-- `MemWrite(addr, n, v)` (R11, R53, R54): the whole range is checked before any byte is written. -/
def memWrite (m : Memory) (addr n v : Nat) : Except Nat Memory :=
  match rangeError addr n with
  | some a => .error a
  | none => .ok (m.storeBytes addr (bytesOfValue n v))

/-- `read_byte(addr)` (R51), which is `MemRead(addr, 1)`. -/
def readByte (m : Memory) (addr : Nat) : Except Nat Byte :=
  match memRead m addr 1 with
  | .error a => .error a
  | .ok v => .ok (BitVec.ofNat 8 v)

/-- `read_word(addr)` (R52), which is `MemRead(addr, 2)`. -/
def readWord (m : Memory) (addr : Nat) : Except Nat Word :=
  match memRead m addr 2 with
  | .error a => .error a
  | .ok v => .ok (BitVec.ofNat 16 v)

/-- `write_byte(addr, value)` (R53): stores `value mod 256`. -/
def writeByte (m : Memory) (addr value : Nat) : Except Nat Memory := memWrite m addr 1 value

/-! ### Registers -/

/-- `V[x]` (R10, R21). -/
def State.getV (s : State) (x : Nib) : Byte := s.v[x.toNat]'x.isLt

/-- `V[x] <- b` (R10, R21). -/
def State.setV (s : State) (x : Nib) (b : Byte) : State := { s with v := s.v.set x.toNat b x.isLt }

/-- `VF <- b`, the flag register `V[15]` (R23). -/
def State.setVF (s : State) (b : Byte) : State := s.setV 0xF#4 b

/-- `I <- w`: "every write stores `v & 0xFFF`" (R24). -/
def State.setI (s : State) (w : Word) : State := { s with i := w &&& 0x0FFF#16 }

/-- `DT <- b` (R29). -/
def State.setDT (s : State) (b : Byte) : State := { s with dt := b }

/-- `ST <- b` (R30). -/
def State.setST (s : State) (b : Byte) : State := { s with st := b }

/-- `MEM <- m`, the result of an instruction's byte writes. -/
def State.setMem (s : State) (m : Memory) : State := { s with mem := m }

/-- `V[0..k-1] <- MEM[addr..addr+k-1]`, in ascending order (R60, R188). -/
def loadRegs (v : Vector Byte 16) (m : Memory) (addr : Nat) : Nat → Vector Byte 16
  | 0 => v
  | k + 1 => (loadRegs v m addr k).setIfInBounds k (m.read (addr + k))

/-! ### Program counter -/

/-- `PC <- w`: a 16-bit register, so the write is `& 0xFFFF` (R25). -/
def State.setPc (s : State) (w : Word) : State := { s with pc := w }

/-- The sequential update of R104: `PC <- (PC + 2) & 0xFFFF`. -/
def State.advance (s : State) : State := s.setPc (s.pc + 2#16)

/-- The skip update of R104: `PC + 4` when the condition holds, else `PC + 2`. -/
def State.skipIf (s : State) (c : Bool) : State := s.setPc (if c then s.pc + 4#16 else s.pc + 2#16)

/-! ### Call stack -/

/-- A push (R28): write `STACK[SP]`, then increment `SP`; `none` where no entry `STACK[SP]` exists. -/
def State.push (s : State) (ra : Word) : Option State :=
  if h : s.sp.toNat < 16 then
    some { s with stack := s.stack.set s.sp.toNat ra h, sp := s.sp + 1#8 }
  else none

/-- A pop (R28): decrement `SP`, then read `STACK[SP]`, leaving the entry; `none` where no such entry exists. -/
def State.pop (s : State) : Option (Word × State) :=
  if h : (s.sp - 1#8).toNat < 16 then
    some (s.stack[(s.sp - 1#8).toNat], { s with sp := s.sp - 1#8 })
  else none

/-! ### Collaborator ports -/

/-- How many port calls were made before this one: the index of the next free answer. -/
def State.nextCall (s : State) : Nat := s.calls.length

/-- Record a port call. -/
def State.record (s : State) (c : PortCall) : State := { s with calls := s.calls ++ [c] }

/-- `Display.Clear()` (R215). -/
def State.displayClear (s : State) : State := s.record .clear

/-- `Display.Plot(x, y, on)` (R216): the display's answer and the state with the call made. -/
def State.displayPlot (s : State) (x y : Nat) (on : Bool) : Bool × State :=
  let collided := Config.plotCollides s.nextCall
  (collided, s.record (.plot x y on collided))

/-- `Input.IsKeyDown(k)` (R217). -/
def State.inputIsKeyDown (s : State) (k : Nib) : Bool × State :=
  let down := Config.keyDown s.nextCall
  (down, s.record (.isKeyDown k down))

/-- `Random.Byte()` (R218). -/
def State.randomByte (s : State) : Byte × State :=
  let r := Config.randomByte s.nextCall
  (r, s.record (.randomByte r))

/-! ### Errors -/

/-- The numeric code of an error kind (R200). -/
def ErrorKind.code : ErrorKind → Nat
  | .addressError => 1
  | .programTooLargeError => 2
  | .stackOverflowError => 3
  | .stackUnderflowError => 4
  | .unknownOpcodeError => 5

/-- `raise E(value)` in a step (R12, R202 to R204): only `ES` changes, to `Halted(E, (PC, value))`; "Nothing is saved
anywhere else", PC still addresses the faulting instruction, and the core goes on in that state. -/
def raise (e : ErrorKind) (value : Nat) (s : State) : Result :=
  .next { s with es := .halted e { pc := s.pc, value := value } }

/-- The return from a halt, `skip_and_continue()` (R206): whether the core was halted, and the state after. -/
def skipAndContinue (s : State) : Bool × State :=
  match s.es with
  | .halted _ _ => (true, { s.advance with es := .idle })
  | .awaitingKey _ => (false, s)
  | .idle => (false, s)

/-- `await x` (R12, R181): `ES <- AwaitingKey(x)`, all other state unchanged. -/
def awaitKey (x : Nib) (s : State) : Result := .next { s with es := .awaitingKey x }

/-- The return from the key wait, `resume_key(k)` (R213): whether the core was waiting, and the state after. -/
def resumeKey (k : Nib) (s : State) : Bool × State :=
  match s.es with
  | .awaitingKey x => (true, { (s.setV x (k.setWidth 8)).advance with es := .idle })
  | .halted _ _ => (false, s)
  | .idle => (false, s)

/-! ### Fetch -/

/-- `fetch()` (R101): the odd-PC check, then the big-endian word at PC; else the address of the `AddressError`. -/
def fetch (s : State) : Except Nat Word :=
  if s.cfg.oddPcFetch = .fault ∧ s.pc.toNat % 2 = 1 then .error s.pc.toNat
  else readWord s.mem s.pc.toNat

end Sys2Proof.Machine
end

