-- ==== Sys2Proof/Machine/Operands.lean ====
section
/-! DEFINITION. The operand forms (spec/30_encoding.md R82): immediates and register-direct operands are the
constructor's fields and `State.getV`; here are the forms that are computed. -/

namespace Sys2Proof.Machine

/-- The source of `8xy6` and `8xyE` by `SHIFT_SOURCE` (R148, R150). -/
def shiftOperand (s : State) (x y : Nib) : Byte :=
  match s.cfg.shiftSource with
  | .vy => s.getV y
  | .vx => s.getV x

/-- `V[x] & 0xF`: the key number of `Ex9E`, `ExA1` and the digit of `Fx29` (R171, R172, R185, U14). -/
def lowNibble (b : Byte) : Nib := b.setWidth 4

/-- The address of the glyph of a digit, `FONT_BASE + 5 * d` (R57, R185). -/
def glyphAddress (c : Config) (d : Nib) : Word := c.fontBase + 5#16 * d.setWidth 16

/-- A byte as a 16-bit addend, zero-extended (R82). -/
def byteAsWord (b : Byte) : Word := b.setWidth 16

/-- A 12-bit address as a PC or I value, zero-extended (R82). -/
def addrAsWord (a : Addr) : Word := a.setWidth 16

/-- The three decimal digits of a byte, hundreds first (R186). -/
def bcdDigits (b : Byte) : List Byte :=
  [BitVec.ofNat 8 (b.toNat / 100), BitVec.ofNat 8 (b.toNat / 10 % 10), BitVec.ofNat 8 (b.toNat % 10)]

/-- How many registers `Fx55` and `Fx65` move: `V[0]` to `V[x]`, so `x + 1` (R60, R187, R188). -/
def blockLength (x : Nib) : Nat := x.toNat + 1

/-- The bytes `V[0]` to `V[x]` (R187). -/
def blockRegs (s : State) (x : Nib) : List Byte := s.v.toList.take (blockLength x)

/-- `I` after `Fx55` or `Fx65`: `(I + x + 1) & 0xFFF` when `LOADSTORE_INCREMENTS_I`, else unchanged (R187, R188). -/
def State.blockAdvanceI (s : State) (x : Nib) : State :=
  if s.cfg.loadstoreIncrementsI then s.setI (s.i + BitVec.ofNat 16 (blockLength x)) else s

/-- One pixel of a sprite as `Dxyn` plots it. -/
structure Pixel where
  /-- Column, below `DISPLAY_W`. -/
  x : Nat
  /-- Row, below `DISPLAY_H`. -/
  y : Nat
  /-- The sprite bit. -/
  on : Bool
deriving DecidableEq, Repr

/-- Where a sprite pixel lands: wrapped, or dropped when past the edge under `clip` (R170). -/
def placePixel (c : Config) (px py : Nat) (on : Bool) : Option Pixel :=
  match c.spriteEdge with
  | .wrap => some { x := px % c.displayW, y := py % c.displayH, on := on }
  | .clip => if px ≥ c.displayW ∨ py ≥ c.displayH then none else some { x := px, y := py, on := on }

/-- The plotted pixels of one row byte, leftmost first: bit 7 is the leftmost pixel (R170). -/
def rowPixels (c : Config) (x0 y : Nat) (row : Byte) : List Pixel :=
  (List.range 8).filterMap fun col => placePixel c (x0 + col) y (row.getLsbD (7 - col))

/-- The plotted pixels of a sprite, top row first (R170). -/
def spritePixels (c : Config) (x0 : Nat) : Nat → List Byte → List Pixel
  | _, [] => []
  | y, row :: rows => rowPixels c x0 y row ++ spritePixels c x0 (y + 1) rows

/-- The pixels `Dxyn` plots, in call order: the start coordinates are `V[x] mod DISPLAY_W`, `V[y] mod DISPLAY_H`, the
`n` rows are the bytes at `I` (R170). -/
def drawnPixels (s : State) (x y n : Nib) : List Pixel :=
  spritePixels s.cfg ((s.getV x).toNat % s.cfg.displayW) ((s.getV y).toNat % s.cfg.displayH)
    (s.mem.loadBytes s.i.toNat n.toNat)

/-- Make one `Display.Plot` call per pixel, in order, and OR the answers (R170). -/
def plotAll (s : State) : List Pixel → Bool × State
  | [] => (false, s)
  | p :: ps =>
    let (hit, s) := s.displayPlot p.x p.y p.on
    let (later, s) := plotAll s ps
    (hit || later, s)

/-- The range check of `Dxyn`: none for `n = 0`, else the `n` bytes at `I` (R170, R54). -/
def spriteRangeError (i : Word) (n : Nib) : Option Nat :=
  if n = 0#4 then none else rangeError i.toNat n.toNat

end Sys2Proof.Machine
end

