-- ==== Sys2Proof/Machine/Alu.lean ====
section
/-! DEFINITION. The ALU (spec/43_alu.md): `6xkk`, `7xkk`, `8xy0` to `8xy7`, `8xyE`. Operands are read before any write
(spec/40_execution_cycle.md R105). -/

namespace Sys2Proof.Machine

/-- The end every ALU instruction shares: the result into `V[x]`, then the flag, if the instruction writes one, into
VF (R106), then the sequential PC update (R104). -/
def aluNext (x : Nib) (result : Byte) (flag : Option Byte) (s : State) : Result :=
  match flag with
  | some f => .next ((s.setV x result).setVF f).advance
  | none => .next (s.setV x result).advance

/-- `6xkk` LD Vx, byte (R140). -/
def execLdImm (x : Nib) (kk : Byte) (s : State) : Result := aluNext x kk none s

/-- `7xkk` ADD Vx, byte (R141): the carry is lost. -/
def execAddImm (x : Nib) (kk : Byte) (s : State) : Result := aluNext x (s.getV x + kk) none s

/-- `8xy0` LD Vx, Vy (R142). -/
def execLdReg (x y : Nib) (s : State) : Result := aluNext x (s.getV y) none s

/-- `8xy1` OR Vx, Vy (R143). -/
def execOrReg (x y : Nib) (s : State) : Result := aluNext x (s.getV x ||| s.getV y) (logicFlag s.cfg) s

/-- `8xy2` AND Vx, Vy (R144). -/
def execAndReg (x y : Nib) (s : State) : Result := aluNext x (s.getV x &&& s.getV y) (logicFlag s.cfg) s

/-- `8xy3` XOR Vx, Vy (R145). -/
def execXorReg (x y : Nib) (s : State) : Result := aluNext x (s.getV x ^^^ s.getV y) (logicFlag s.cfg) s

/-- `8xy4` ADD Vx, Vy (R146). -/
def execAddReg (x y : Nib) (s : State) : Result :=
  aluNext x (s.getV x + s.getV y) (some (carryFlag (s.getV x) (s.getV y))) s

/-- `8xy5` SUB Vx, Vy (R147): `V[x] - V[y]`. -/
def execSub (x y : Nib) (s : State) : Result :=
  aluNext x (s.getV x - s.getV y) (some (notBorrowFlag (s.getV x) (s.getV y))) s

/-- `8xy6` SHR Vx, Vy (R148). -/
def execShr (x y : Nib) (s : State) : Result :=
  aluNext x (shiftOperand s x y >>> 1) (some (shiftedOutRight (shiftOperand s x y))) s

/-- `8xy7` SUBN Vx, Vy (R149): `V[y] - V[x]`. -/
def execSubn (x y : Nib) (s : State) : Result :=
  aluNext x (s.getV y - s.getV x) (some (notBorrowFlag (s.getV y) (s.getV x))) s

/-- `8xyE` SHL Vx, Vy (R150). -/
def execShl (x y : Nib) (s : State) : Result :=
  aluNext x (shiftOperand s x y <<< 1) (some (shiftedOutLeft (shiftOperand s x y))) s

end Sys2Proof.Machine
end

