-- ==== Sys2Proof/Machine/ControlFlow.lean ====
section
/-! DEFINITION. Control flow (spec/41_control_flow.md): `00E0`, `00EE`, `1nnn`, `2nnn`. -/

namespace Sys2Proof.Machine

/-- `00E0` CLS (R120). -/
def execCls (s : State) : Result := .next s.displayClear.advance

/-- `00EE` RET (R121). -/
def execRet (s : State) : Result :=
  if s.sp = 0#8 then raise .stackUnderflowError 0 s
  else match s.pop with
    | some (ra, s') => .next (s'.setPc ra)
    | none => .fault .stackPointerOutOfRange

/-- `1nnn` JP addr (R122). -/
def execJp (nnn : Addr) (s : State) : Result := .next (s.setPc (addrAsWord nnn))

/-- `2nnn` CALL addr (R123). -/
def execCall (nnn : Addr) (s : State) : Result :=
  if s.sp = 16#8 then raise .stackOverflowError 0 s
  else match s.push (s.pc + 2#16) with
    | some s' => .next (s'.setPc (addrAsWord nnn))
    | none => .fault .stackPointerOutOfRange

end Sys2Proof.Machine
end

