-- ==== Sys2Proof/Machine/DisplayInput.lean ====
section
/-! DEFINITION. Draw sprite and key skips (spec/45_display_input.md): `Dxyn`, `Ex9E`, `ExA1`. -/

namespace Sys2Proof.Machine

/-- `Dxyn` DRW Vx, Vy, nibble (R170): the range check comes before any read or plot, all rows are read before the first
plot, and VF is written after the reads of `V[x]` and `V[y]`. -/
def execDrw (x y n : Nib) (s : State) : Result :=
  match spriteRangeError s.i n with
  | some a => raise .addressError a s
  | none =>
    let (hit, s') := plotAll s (drawnPixels s x y n)
    .next (s'.setVF (collisionFlag hit)).advance

/-- `Ex9E` SKP Vx (R171). -/
def execSkp (x : Nib) (s : State) : Result :=
  let (down, s') := s.inputIsKeyDown (lowNibble (s.getV x))
  .next (s'.skipIf down)

/-- `ExA1` SKNP Vx (R172). -/
def execSknp (x : Nib) (s : State) : Result :=
  let (down, s') := s.inputIsKeyDown (lowNibble (s.getV x))
  .next (s'.skipIf (!down))

end Sys2Proof.Machine
end

