-- ==== Sys2Proof/Machine/IndexJumpRandom.lean ====
section
/-! DEFINITION. Set index, jump with offset, random (spec/44_index_jump_random.md): `Annn`, `Bnnn`, `Cxkk`. -/

namespace Sys2Proof.Machine

/-- `Annn` LD I, addr (R160). -/
def execLdI (nnn : Addr) (s : State) : Result := .next (s.setI (addrAsWord nnn)).advance

/-- `Bnnn` JP V0, addr (R161): no 12-bit wrap. -/
def execJpV0 (nnn : Addr) (s : State) : Result :=
  .next (s.setPc (addrAsWord nnn + byteAsWord (s.getV 0x0#4)))

/-- `Cxkk` RND Vx, byte (R162): one port call, masked with `kk`. -/
def execRnd (x : Nib) (kk : Byte) (s : State) : Result :=
  let (r, s') := s.randomByte
  .next (s'.setV x (r &&& kk)).advance

end Sys2Proof.Machine
end

