-- ==== Sys2Proof/Machine/Skip.lean ====
section
/-! DEFINITION. Conditional skips (spec/42_skip.md): `3xkk`, `4xkk`, `5xy0`, `9xy0`. -/

namespace Sys2Proof.Machine

/-- `3xkk` SE Vx, byte (R130). -/
def execSeImm (x : Nib) (kk : Byte) (s : State) : Result := .next (s.skipIf (s.getV x == kk))

/-- `4xkk` SNE Vx, byte (R131). -/
def execSneImm (x : Nib) (kk : Byte) (s : State) : Result := .next (s.skipIf (s.getV x != kk))

/-- `5xy0` SE Vx, Vy (R132). -/
def execSeReg (x y : Nib) (s : State) : Result := .next (s.skipIf (s.getV x == s.getV y))

/-- `9xy0` SNE Vx, Vy (R133). -/
def execSneReg (x y : Nib) (s : State) : Result := .next (s.skipIf (s.getV x != s.getV y))

end Sys2Proof.Machine
end

