-- ==== Sys2Proof/Machine/TimerMemory.lean ====
section
/-! DEFINITION. Timers, key wait, index, BCD and register-block transfer (spec/46_timer_memory.md): the `Fx__`
group. -/

namespace Sys2Proof.Machine

/-- `Fx07` LD Vx, DT (R180). -/
def execLdVxDt (x : Nib) (s : State) : Result := .next (s.setV x s.dt).advance

/-- `Fx0A` LD Vx, K (R181): the wait begins; `resumeKey` (Ops.lean) completes it. -/
def execLdVxK (x : Nib) (s : State) : Result := awaitKey x s

/-- `Fx15` LD DT, Vx (R182). -/
def execLdDtVx (x : Nib) (s : State) : Result := .next (s.setDT (s.getV x)).advance

/-- `Fx18` LD ST, Vx (R183). -/
def execLdStVx (x : Nib) (s : State) : Result := .next (s.setST (s.getV x)).advance

/-- `Fx1E` ADD I, Vx (R184): the sum wraps at 12 bits, VF is not written. -/
def execAddI (x : Nib) (s : State) : Result := .next (s.setI (s.i + byteAsWord (s.getV x))).advance

/-- `Fx29` LD F, Vx (R185). -/
def execLdF (x : Nib) (s : State) : Result :=
  .next (s.setI (glyphAddress s.cfg (lowNibble (s.getV x)))).advance

/-- `Fx33` LD B, Vx (R186): the range is checked before any write. -/
def execLdB (x : Nib) (s : State) : Result :=
  match rangeError s.i.toNat 3 with
  | some a => raise .addressError a s
  | none => .next (s.setMem (s.mem.storeBytes s.i.toNat (bcdDigits (s.getV x)))).advance

/-- `Fx55` LD [I], Vx (R187): the range is checked before any write; I is read before any update of I (R105). -/
def execLdMemVx (x : Nib) (s : State) : Result :=
  match rangeError s.i.toNat (blockLength x) with
  | some a => raise .addressError a s
  | none => .next ((s.setMem (s.mem.storeBytes s.i.toNat (blockRegs s x))).blockAdvanceI x).advance

/-- `Fx65` LD Vx, [I] (R188): the range is checked before any read; I is read before any update of I (R105). -/
def execLdVxMem (x : Nib) (s : State) : Result :=
  match rangeError s.i.toNat (blockLength x) with
  | some a => raise .addressError a s
  | none =>
    .next (({ s with v := loadRegs s.v s.mem s.i.toNat (blockLength x) } : State).blockAdvanceI x).advance

end Sys2Proof.Machine
end

