-- ==== Sys2Proof/Machine/Cycle.lean ====
section
/-! DEFINITION. The fetch-decode-execute cycle of one `step()` (spec/40_execution_cycle.md R100 to R103, R107, R108)
and where the next fetch takes place. -/

namespace Sys2Proof.Machine

/-- The `Idle` case of R100: fetch, decode, execute; the errors in the order of R208. -/
def stepIdle (s : State) : Result :=
  match fetch s with
  | .error a => raise .addressError a s
  | .ok w =>
    match decodeWord w with
    | .error _ => raise .unknownOpcodeError w.toNat s
    | .ok i => exec i s

/-- A `step()` while `Halted` or `AwaitingKey` "changes nothing" (R108, R205). -/
def stepHeld (s : State) : Result := .next s

/-- Whether the fetch at the current PC succeeds (R101): an in-range PC, even where `ODD_PC_FETCH = fault`. -/
def State.fetchable (s : State) : Bool :=
  decide (s.pc.toNat + 1 ≤ lastAddress) && !(s.cfg.oddPcFetch == .fault && s.pc.toNat % 2 == 1)

/-- The state with a PC at which a fetch succeeds: the same state where its PC already is one, else PC at the
reference program origin (log entry 12). -/
def State.atFetchablePc (s : State) : State :=
  if s.fetchable then s else s.setPc 0x200#16

/-- A word stored big-endian at PC (R58), with the core ready to execute it. -/
def State.placeWord (s : State) (w : Word) : State :=
  { s.setMem (s.mem.storeBytes s.pc.toNat (bytesOfWord w)) with es := .idle }

end Sys2Proof.Machine
end

