-- ==== Sys2Proof/Machine/Step.lean ====
section
/-! DEFINITION. One `step()` (spec/40_execution_cycle.md R100), and the word placed where the next step fetches. -/

namespace Sys2Proof.Machine

/-- `step()` (R100): at most one instruction. -/
def step (s : State) : Host.Outcome State Fault Refusal :=
  match s.es with
  | .halted _ _ => stepHeld s
  | .awaitingKey _ => stepHeld s
  | .idle => stepIdle s

/-- The program placed from outside (R232; log entries 11 and 12): the word, numbered as the opcode table numbers its
bits, stands where the next `step` fetches, and the core is ready to execute it. -/
def State.withFetchWord (s : State) (nbits w : Nat) : State :=
  s.atFetchablePc.placeWord (tableWord nbits w)

end Sys2Proof.Machine
end

