-- ==== Sys2Proof/Machine/HostOps.lean ====
section
/-! DEFINITION. The host operations of the block (spec/00_scope.md R6), each atomic (spec/20_memory.md R64), and a run as
the sequence of operations the host issues (spec/40_execution_cycle.md R110). -/

namespace Sys2Proof.Machine

/-- The nine host operations of R6. -/
inductive HostOp where
  /-- `reset()` (R230). -/
  | reset
  /-- `load_program(bytes, origin)` (R63). -/
  | loadProgram (bytes : List Byte) (origin : Nat)
  /-- `host_read_byte(addr)` (R62). -/
  | hostReadByte (addr : Nat)
  /-- `host_write_byte(addr, v)` (R62). -/
  | hostWriteByte (addr value : Nat)
  /-- `step()` (R100). -/
  | step
  /-- `tick_timers()` (R210). -/
  | tickTimers
  /-- `resume_key(k)`: the port is 4 bits wide (R213). -/
  | resumeKey (k : Nib)
  /-- `skip_and_continue()` (R206). -/
  | skipAndContinue
  /-- `observe()` (R38). -/
  | observe
deriving DecidableEq, Repr

/-- What `observe()` returns: "the whole state tuple of rule R20" (R38). -/
structure Observation where
  /-- `MEM`. -/
  mem : Memory
  /-- `V[0..15]`. -/
  v : Vector Byte 16
  /-- `I`. -/
  i : Word
  /-- `PC`. -/
  pc : Word
  /-- `SP`. -/
  sp : Byte
  /-- `STACK[0..15]`. -/
  stack : Vector Word 16
  /-- `DT`. -/
  dt : Byte
  /-- `ST`. -/
  st : Byte
  /-- `ES`. -/
  es : ExecState
deriving DecidableEq, Repr

/-- What an operation returns to the host. -/
inductive HostReply where
  /-- `Ok` (R12, R107). -/
  | ok
  /-- `AwaitingKey` (R107). -/
  | awaitingKey
  /-- `Halted(E, info)` (R107, R204). -/
  | halted (e : ErrorKind) (info : ErrorInfo)
  /-- The byte of `host_read_byte` (R62). -/
  | byte (b : Byte)
  /-- `AddressError(a)` of a host access (R62, R222). -/
  | addressError (a : Nat)
  /-- `ProgramTooLargeError` of `load_program` (R63, R222). -/
  | programTooLargeError
  /-- `NotHalted` of `skip_and_continue` (R206). -/
  | notHalted
  /-- `NotAwaiting` of `resume_key` (R213). -/
  | notAwaiting
  /-- The state tuple `observe()` returns (R38). -/
  | observed (o : Observation)
deriving DecidableEq, Repr

/-- The outcome of one host operation: its reply and the state it commits. -/
abbrev HostResult := Host.Outcome (HostReply × State) Fault Refusal

/-- The state tuple of R20 (R38). -/
def State.observation (s : State) : Observation where
  mem := s.mem
  v := s.v
  i := s.i
  pc := s.pc
  sp := s.sp
  stack := s.stack
  dt := s.dt
  st := s.st
  es := s.es

/-- `reset()` (R230): every piece of state at its reset value, the configuration as it is, and no port call made (the
record of the calls already made stays; log entry 4). -/
def hostReset (s : State) : State := { State.resetWith s.cfg with calls := s.calls }

/-- `load_program(bytes, origin)` (R63): `none` is `ProgramTooLargeError`, with nothing written. -/
def loadProgram (m : Memory) (bytes : List Byte) (origin : Nat) : Option Memory :=
  if bytes.length = 0 then some m
  else if origin + bytes.length - 1 > lastAddress then none
  else some (m.storeBytes origin bytes)

/-- Decrement if nonzero: "no underflow below zero" (R210). -/
def decrementTimer (b : Byte) : Byte := if b.toNat > 0 then b - 1#8 else b

/-- `tick_timers()` (R210): both timers, in every execution state (R211). -/
def tickTimers (s : State) : State := (s.setDT (decrementTimer s.dt)).setST (decrementTimer s.st)

/-- `sound_active = (ST > 0)`, as the core exposes it to the audio collaborator (R219). -/
def State.soundActive (s : State) : Bool := decide (s.st.toNat > 0)

/-- The outcome `step()` returns, read from the `ES` it commits (R107). -/
def stepReply (s : State) : HostReply :=
  match s.es with
  | .idle => .ok
  | .awaitingKey _ => .awaitingKey
  | .halted e info => .halted e info

/-- `step()` as a host operation (R100, R107). -/
def performStep (s : State) : HostResult :=
  match step s with
  | .next t => .next (stepReply t, t)
  | .fault f => .fault f
  | .refused r => .refused r

/-- `load_program` as a host operation: it writes no register and does not change `ES` (R63, R222). -/
def performLoad (bytes : List Byte) (origin : Nat) (s : State) : HostResult :=
  match loadProgram s.mem bytes origin with
  | some m => .next (.ok, s.setMem m)
  | none => .next (.programTooLargeError, s)

/-- `host_read_byte` (R62). -/
def performRead (addr : Nat) (s : State) : HostResult :=
  match readByte s.mem addr with
  | .ok b => .next (.byte b, s)
  | .error a => .next (.addressError a, s)

/-- `host_write_byte` (R62). -/
def performWrite (addr value : Nat) (s : State) : HostResult :=
  match writeByte s.mem addr value with
  | .ok m => .next (.ok, s.setMem m)
  | .error a => .next (.addressError a, s)

/-- `resume_key(k)` as a host operation (R213). -/
def performResume (k : Nib) (s : State) : HostResult :=
  let (waiting, t) := resumeKey k s
  .next (if waiting then .ok else .notAwaiting, t)

/-- `skip_and_continue()` as a host operation (R206). -/
def performSkip (s : State) : HostResult :=
  let (halted, t) := skipAndContinue s
  .next (if halted then .ok else .notHalted, t)

/-- One host operation, performed whole (R6, R64). -/
def perform (op : HostOp) (s : State) : HostResult :=
  match op with
  | .reset => .next (.ok, hostReset s)
  | .loadProgram bytes origin => performLoad bytes origin s
  | .hostReadByte addr => performRead addr s
  | .hostWriteByte addr value => performWrite addr value s
  | .step => performStep s
  | .tickTimers => .next (.ok, tickTimers s)
  | .resumeKey k => performResume k s
  | .skipAndContinue => performSkip s
  | .observe => .next (.observed s.observation, s)

/-- A run: the operations in the order the host issues them (R64, R110). -/
def runOps : List HostOp → State → Host.Outcome State Fault Refusal
  | [], s => .next s
  | op :: ops, s =>
    match perform op s with
    | .next (_, t) => runOps ops t
    | .fault f => .fault f
    | .refused r => .refused r

/-- The glyphs of the digits 0 to 7 of the standard font (R234). -/
def fontLow : List Byte :=
  [0xF0#8, 0x90#8, 0x90#8, 0x90#8, 0xF0#8, 0x20#8, 0x60#8, 0x20#8, 0x20#8, 0x70#8]
    ++ [0xF0#8, 0x10#8, 0xF0#8, 0x80#8, 0xF0#8, 0xF0#8, 0x10#8, 0xF0#8, 0x10#8, 0xF0#8]
    ++ [0x90#8, 0x90#8, 0xF0#8, 0x10#8, 0x10#8, 0xF0#8, 0x80#8, 0xF0#8, 0x10#8, 0xF0#8]
    ++ [0xF0#8, 0x80#8, 0xF0#8, 0x90#8, 0xF0#8, 0xF0#8, 0x10#8, 0x20#8, 0x40#8, 0x40#8]

/-- The glyphs of the digits 8 to F of the standard font (R234). -/
def fontHigh : List Byte :=
  [0xF0#8, 0x90#8, 0xF0#8, 0x90#8, 0xF0#8, 0xF0#8, 0x90#8, 0xF0#8, 0x10#8, 0xF0#8]
    ++ [0xF0#8, 0x90#8, 0xF0#8, 0x90#8, 0x90#8, 0xE0#8, 0x90#8, 0xE0#8, 0x90#8, 0xE0#8]
    ++ [0xF0#8, 0x80#8, 0x80#8, 0x80#8, 0xF0#8, 0xE0#8, 0x90#8, 0x90#8, 0x90#8, 0xE0#8]
    ++ [0xF0#8, 0x80#8, 0xF0#8, 0x80#8, 0xF0#8, 0xF0#8, 0x80#8, 0xF0#8, 0x80#8, 0x80#8]

/-- The standard font, 5 bytes per digit (R234). -/
def standardFont : List Byte := fontLow ++ fontHigh

/-- The boot sequence the host performs (R232): reset, the font where the program uses it (R233), the program at
`PROGRAM_ORIGIN`. -/
def bootOps (c : Config) (withFont : Bool) (rom : List Byte) : List HostOp :=
  [.reset] ++ (if withFont then [.loadProgram standardFont c.fontBase.toNat] else [])
    ++ [.loadProgram rom c.programOrigin.toNat]

end Sys2Proof.Machine
end

