-- ==== Sys2Proof/WellFormed.lean ====
section
/-! DEFINITION. The checks on instructions, on instruction words and on configurations: every operand fits its
field (spec/30_encoding.md R81), a word is not one of the illegal patterns (R86), a configuration is legal
(spec/00_scope.md R8). -/

namespace Sys2Proof

/-- The fields of an instruction as (width, value), most significant first (R81, R83). -/
def Instr.fields : Instr → List (Nat × Nat)
  | .cls => []
  | .ret => []
  | .jp nnn => [(12, nnn.toNat)]
  | .call nnn => [(12, nnn.toNat)]
  | .seImm x kk => [(4, x.toNat), (8, kk.toNat)]
  | .sneImm x kk => [(4, x.toNat), (8, kk.toNat)]
  | .seReg x y => [(4, x.toNat), (4, y.toNat)]
  | .ldImm x kk => [(4, x.toNat), (8, kk.toNat)]
  | .addImm x kk => [(4, x.toNat), (8, kk.toNat)]
  | .ldReg x y => [(4, x.toNat), (4, y.toNat)]
  | .orReg x y => [(4, x.toNat), (4, y.toNat)]
  | .andReg x y => [(4, x.toNat), (4, y.toNat)]
  | .xorReg x y => [(4, x.toNat), (4, y.toNat)]
  | .addReg x y => [(4, x.toNat), (4, y.toNat)]
  | .sub x y => [(4, x.toNat), (4, y.toNat)]
  | .shr x y => [(4, x.toNat), (4, y.toNat)]
  | .subn x y => [(4, x.toNat), (4, y.toNat)]
  | .shl x y => [(4, x.toNat), (4, y.toNat)]
  | .sneReg x y => [(4, x.toNat), (4, y.toNat)]
  | .ldI nnn => [(12, nnn.toNat)]
  | .jpV0 nnn => [(12, nnn.toNat)]
  | .rnd x kk => [(4, x.toNat), (8, kk.toNat)]
  | .drw x y n => [(4, x.toNat), (4, y.toNat), (4, n.toNat)]
  | .skp x => [(4, x.toNat)]
  | .sknp x => [(4, x.toNat)]
  | .ldVxDt x => [(4, x.toNat)]
  | .ldVxK x => [(4, x.toNat)]
  | .ldDtVx x => [(4, x.toNat)]
  | .ldStVx x => [(4, x.toNat)]
  | .addI x => [(4, x.toNat)]
  | .ldF x => [(4, x.toNat)]
  | .ldB x => [(4, x.toNat)]
  | .ldMemVx x => [(4, x.toNat)]
  | .ldVxMem x => [(4, x.toNat)]

/-- Every listed value fits the width of its field. -/
def fieldsFit (fs : List (Nat × Nat)) : Bool :=
  fs.all fun f => decide (f.2 < 2 ^ f.1)

/-- An instruction is well formed when its operands fit their fields. The operand types already say so, so every term
passes (R21 "structurally impossible given 4-bit operand fields"; log entry 20). -/
def Instr.wellFormed (i : Instr) : Bool := fieldsFit i.fields

/-- The illegal words, pattern by pattern as the table of R86 lists them. Written with division and remainder,
apart from the decoder's own field extraction, so that the two can be compared. -/
def illegalWord (w : Word) : Bool :=
  let op := w.toNat / 0x1000
  let n := w.toNat % 0x10
  let kk := w.toNat % 0x100
  (op == 0x0 && !(w == 0x00E0#16 || w == 0x00EE#16))
    || (op == 0x5 && n != 0)
    || (op == 0x8 && [0x8, 0x9, 0xA, 0xB, 0xC, 0xD, 0xF].contains n)
    || (op == 0x9 && n != 0)
    || (op == 0xE && !([0x9E, 0xA1].contains kk))
    || (op == 0xF && !([0x07, 0x0A, 0x15, 0x18, 0x1E, 0x29, 0x33, 0x55, 0x65].contains kk))

/-- The legal configurations of R8: `PROGRAM_ORIGIN` is 0x200 or 0x600, the 80 glyph bytes fit below 0x1000, the
display has a positive size. -/
def Config.wellFormed (c : Config) : Bool :=
  (c.programOrigin == 0x200#16 || c.programOrigin == 0x600#16)
    && decide (c.fontBase.toNat ≤ 0xFB0)
    && decide (0 < c.displayW)
    && decide (0 < c.displayH)

end Sys2Proof
end

