-- ==== Sys2Proof/Safety.lean ====
section
/-! DEFINITION. What a legal state and a safe run are, in the terms the statements use: the invariants of
spec/10_state.md R40, and the conforming display of spec/60_exceptions.md R216. -/

namespace Sys2Proof.Machine

/-- What a halt records (R202, R204): the recorded pc is PC, and a step error is never `ProgramTooLargeError`. -/
def State.haltRecorded (s : State) : Bool :=
  match s.es with
  | .halted e info => decide (info.pc = s.pc) && decide (e ≠ .programTooLargeError)
  | .awaitingKey _ => true
  | .idle => true

/-- The invariants of R40 that are not already in the widths of the fields: `I <= 0xFFF`, `SP <= 16`; with the canonical
form of memory (log entry 8) and what a halt records (R202, R204). -/
def State.inv (s : State) : Bool :=
  s.mem.wf && decide (s.i.toNat ≤ 0xFFF) && decide (s.sp.toNat ≤ 16) && s.haltRecorded

/-- The invariant as a proposition. -/
abbrev State.Inv (s : State) : Prop := s.inv = true

/-- The last invariant of R40: "if `ES = AwaitingKey(x)` then the word at `PC` decodes to `Fx0A` with that `x`". A host
write to memory may break it (R236). -/
def State.waitsAtKeyInstr (s : State) : Bool :=
  match s.es with
  | .awaitingKey x =>
    match fetch s with
    | .error _ => false
    | .ok w =>
      match decodeWord w with
      | .ok (.ldVxK y) => decide (y = x)
      | _ => false
  | .halted _ _ => true
  | .idle => true

/-- The operations through which the host writes memory (R38, R62, R63). -/
def HostOp.writesMemory : HostOp → Bool
  | .loadProgram _ _ => true
  | .hostWriteByte _ _ => true
  | .reset => false
  | .hostReadByte _ => false
  | .step => false
  | .tickTimers => false
  | .resumeKey _ => false
  | .skipAndContinue => false
  | .observe => false

/-- A run is safe when every operation of it is performed to its end: none stops in a fault or a refusal. -/
def SafeRun (ops : List HostOp) (s : State) : Prop := ∃ t, runOps ops s = .next t

/-- A display's pixel at (x, y) after one port call: a clear turns it off, a plot XORs `on` into it (R215, R216). -/
def pixelAfter (x y : Nat) (lit : Bool) : PortCall → Bool
  | .clear => false
  | .plot px py on _ => if px = x ∧ py = y then lit ^^ on else lit
  | .isKeyDown _ _ => lit
  | .randomByte _ => lit

/-- A display's pixel at (x, y) after a sequence of port calls, from its value `lit` before them. -/
def displayPixel (lit : Bool) (calls : List PortCall) (x y : Nat) : Bool :=
  calls.foldl (pixelAfter x y) lit

/-- A conforming display (R216), blank before the first call: every plot answered "on and (the pixel was set before the
call)". -/
def ConformingDisplay (calls : List PortCall) : Prop :=
  ∀ before x y on collided after, calls = before ++ .plot x y on collided :: after →
    collided = (on && displayPixel false before x y)

end Sys2Proof.Machine
end

