-- ==== Sys2Proof/Certificates/Slice0/Obligations.lean ====
section
/-! DEFINITION. The statements for the provers. The vocabulary they share is under Sys2Proof.Claims; values are said as
natural numbers, apart from the operations the meanings use, so that a statement can be held against its rule. -/

namespace Sys2Proof.Claims

open Sys2Proof Sys2Proof.Machine

/-! ### Frames -/

/-- The parts of the state a frame speaks of. -/
inductive Part where
  | mem | v | i | pc | sp | stack | dt | st | es | calls | cfg
deriving DecidableEq, Repr

/-- A part is the same in two states; memory and registers are compared through the model's reads. -/
def Part.same (s t : State) : Part → Prop
  | .mem => ∀ a, t.mem.read a = s.mem.read a
  | .v => ∀ j, t.getV j = s.getV j
  | .i => t.i = s.i
  | .pc => t.pc = s.pc
  | .sp => t.sp = s.sp
  | .stack => t.stack = s.stack
  | .dt => t.dt = s.dt
  | .st => t.st = s.st
  | .es => t.es = s.es
  | .calls => t.calls = s.calls
  | .cfg => t.cfg = s.cfg

/-- Every part not listed is unchanged from `s` to `t`. -/
def UnchangedBut (ps : List Part) (s t : State) : Prop := ∀ p, p ∉ ps → p.same s t

/-- Every register not listed is unchanged from `s` to `t`. -/
def RegsUnchangedBut (xs : List Nib) (s t : State) : Prop := ∀ j, j ∉ xs → t.getV j = s.getV j

/-- The sequential PC update (R104), everything but PC and the listed parts unchanged. -/
def Sequential (ps : List Part) (s t : State) : Prop :=
  t.pc.toNat = (s.pc.toNat + 2) % 65536 ∧ UnchangedBut (.pc :: ps) s t

/-- The skip PC update (R104) on a condition, everything but PC and the listed parts unchanged. -/
def Skipping (c : Prop) [Decidable c] (ps : List Part) (s t : State) : Prop :=
  t.pc.toNat = (s.pc.toNat + if c then 4 else 2) % 65536 ∧ UnchangedBut (.pc :: ps) s t

/-- One register is written and the instruction is sequential. -/
def WritesReg (x : Nib) (value : Nat) (s t : State) : Prop :=
  (t.getV x).toNat = value ∧ RegsUnchangedBut [x] s t ∧ Sequential [.v] s t

/-- A result is written and then the flag, so with `x = 15` the flag is what VF holds (R106). -/
def WritesRegThenFlag (x : Nib) (value flag : Nat) (s t : State) : Prop :=
  (t.getV 0xF#4).toNat = flag ∧ (x ≠ 0xF#4 → (t.getV x).toNat = value) ∧
    RegsUnchangedBut [x, 0xF#4] s t ∧ Sequential [.v] s t

/-- The halt a step error leaves (R202 to R204): only ES differs. -/
def haltOf (e : ErrorKind) (value : Nat) (s : State) : State :=
  { s with es := .halted e { pc := s.pc, value := value } }

/-! ### Words as the rules write them -/

/-- `base | x << 8 | kk`. -/
def wordXkk (base : Word) (x : Nib) (kk : Byte) : Word := base ||| x.setWidth 16 <<< 8 ||| kk.setWidth 16

/-- `base | x << 8 | y << 4`. -/
def wordXy (base : Word) (x y : Nib) : Word := base ||| x.setWidth 16 <<< 8 ||| y.setWidth 16 <<< 4

/-- `base | x << 8`. -/
def wordX (base : Word) (x : Nib) : Word := base ||| x.setWidth 16 <<< 8

/-- `base | nnn`. -/
def wordNnn (base : Word) (nnn : Addr) : Word := base ||| nnn.setWidth 16

/-! ### Port calls -/

/-- The arguments of a plot call. -/
def plotArgs : PortCall → Option (Nat × Nat × Bool)
  | .plot x y on _ => some (x, y, on)
  | .clear => none
  | .isKeyDown _ _ => none
  | .randomByte _ => none

/-- A plot call answered collided. -/
def answeredCollided : PortCall → Bool
  | .plot _ _ _ collided => collided
  | .clear => false
  | .isKeyDown _ _ => false
  | .randomByte _ => false

/-- The plot calls the pseudocode of R170 makes, in its loop order: rows from the top, columns from the left. -/
def ruleR170Plots (s : State) (x y n : Nib) : List (Nat × Nat × Bool) :=
  let w := s.cfg.displayW
  let h := s.cfg.displayH
  let x0 := (s.getV x).toNat % w
  let y0 := (s.getV y).toNat % h
  (List.range n.toNat).flatMap fun r =>
    (List.range 8).filterMap fun c =>
      let on := (s.mem.read (s.i.toNat + r)).getLsbD (7 - c)
      if s.cfg.spriteEdge = .wrap then some ((x0 + c) % w, (y0 + r) % h, on)
      else if x0 + c ≥ w ∨ y0 + r ≥ h then none
      else some (x0 + c, y0 + r, on)

/-! ### The tables of the whole machine -/

/-- The rows of R201 that an instruction raises itself, with the value R202 records. -/
def ruleR201Error (i : Instr) (s : State) : Option (ErrorKind × Nat) :=
  match i with
  | .ret => if s.sp.toNat = 0 then some (.stackUnderflowError, 0) else none
  | .call _ => if s.sp.toNat = 16 then some (.stackOverflowError, 0) else none
  | .drw _ _ n => if 0 < n.toNat ∧ s.i.toNat + n.toNat - 1 > 0xFFF then some (.addressError, 0x1000) else none
  | .ldB _ => if s.i.toNat + 2 > 0xFFF then some (.addressError, 0x1000) else none
  | .ldMemVx x => if s.i.toNat + x.toNat > 0xFFF then some (.addressError, 0x1000) else none
  | .ldVxMem x => if s.i.toNat + x.toNat > 0xFFF then some (.addressError, 0x1000) else none
  | _ => none

/-- The kinds of PC update of R104, for an instruction that commits. -/
inductive PcKind where
  | sequential | skip | jump | indexedJump | ret | wait
deriving DecidableEq, Repr

/-- The table of R104. -/
def ruleR104Kind : Instr → PcKind
  | .seImm _ _ | .sneImm _ _ | .seReg _ _ | .sneReg _ _ | .skp _ | .sknp _ => .skip
  | .jp _ | .call _ => .jump
  | .jpV0 _ => .indexedJump
  | .ret => .ret
  | .ldVxK _ => .wait
  | _ => .sequential

/-- The registers an instruction may write: the lists of R22 and R35. -/
def ruleR22Writes (c : Config) : Instr → Nib → Prop
  | .ldImm x _, j | .addImm x _, j | .ldReg x _, j | .rnd x _, j | .ldVxDt x, j => j = x
  | .orReg x _, j | .andReg x _, j | .xorReg x _, j => j = x ∨ (c.logicResetsVf = true ∧ j = 0xF#4)
  | .addReg x _, j | .sub x _, j | .shr x _, j | .subn x _, j | .shl x _, j => j = x ∨ j = 0xF#4
  | .drw _ _ _, j => j = 0xF#4
  | .ldVxMem x, j => j.toNat ≤ x.toNat
  | _, _ => False

/-- The instructions that write I (R24). -/
def ruleR24WritesI (c : Config) : Instr → Bool
  | .ldI _ | .addI _ | .ldF _ => true
  | .ldMemVx _ | .ldVxMem _ => c.loadstoreIncrementsI
  | _ => false

/-- The addresses an instruction may write (R60). -/
def ruleR60Writes (s : State) : Instr → Nat → Prop
  | .ldB _, a => s.i.toNat ≤ a ∧ a ≤ s.i.toNat + 2
  | .ldMemVx x, a => s.i.toNat ≤ a ∧ a ≤ s.i.toNat + x.toNat
  | _, _ => False

/-- How many port calls an instruction that commits makes, and on which ports (R120, R162, R170 to R172). -/
def rulePortCalls (s : State) (i : Instr) (new : List PortCall) : Prop :=
  match i with
  | .cls => new = [.clear]
  | .rnd _ _ => ∃ r, new = [.randomByte r]
  | .skp x => ∃ down, new = [.isKeyDown ((s.getV x).setWidth 4) down]
  | .sknp x => ∃ down, new = [.isKeyDown ((s.getV x).setWidth 4) down]
  | .drw x y n => new.map plotArgs = (ruleR170Plots s x y n).map some
  | _ => new = []

end Sys2Proof.Claims

open Sys2Proof Sys2Proof.Machine Sys2Proof.Claims

/-! ### Encoding -/

/-- R80, R81, R83 to R85: decoding the bytes of any instruction gives it back, and the bytes after it. Every term of
Instr is well formed (log entry 20), so this is for all instructions and operands. -/
def Obligations.DecodeOfEncodeGivesTheInstruction : Prop :=
  ∀ (i : Instr) (rest : List Byte), decode (encodeBytes i ++ rest) = .ok (i, rest)

/-- R84, R85, R88 ("every word is either one instruction of rule R84 or illegal"): a word that decodes is the word of
the instruction it decodes to, so no bit is ignored. -/
def Obligations.EncodeOfDecodedWordIsTheWord : Prop :=
  ∀ (w : Word) (i : Instr), decodeWord w = .ok i → encode i = w

/-- R86: the words that decode to nothing are exactly those of its patterns, and every other word decodes. -/
def Obligations.DecodeRejectsExactlyTheIllegalPatterns : Prop :=
  ∀ w : Word,
    (illegalWord w = true → decodeWord w = .error (.unknown w)) ∧
    (illegalWord w = false → ∃ i, decodeWord w = .ok i)

/-- Words written out from the encodings of R120, R123, R133, R146, R150, R161, R170, R172 and R187. -/
def Obligations.WrittenOutWordsDecode : Prop :=
  decode [0x00#8, 0xE0#8] = .ok (.cls, []) ∧
  decode [0x23#8, 0x45#8] = .ok (.call 0x345#12, []) ∧
  decode [0x9A#8, 0xB0#8] = .ok (.sneReg 0xA#4 0xB#4, []) ∧
  decode [0x8A#8, 0xB4#8] = .ok (.addReg 0xA#4 0xB#4, []) ∧
  decode [0x8C#8, 0xAE#8] = .ok (.shl 0xC#4 0xA#4, []) ∧
  decode [0xB3#8, 0x00#8] = .ok (.jpV0 0x300#12, []) ∧
  decode [0xD0#8, 0x15#8] = .ok (.drw 0x0#4 0x1#4 0x5#4, []) ∧
  decode [0xE2#8, 0xA1#8] = .ok (.sknp 0x2#4, []) ∧
  decode [0xF2#8, 0x55#8] = .ok (.ldMemVx 0x2#4, []) ∧
  decode [0x00#8, 0x00#8] = .error (.unknown 0x0000#16)

/-! ### The cycle -/

/-- R100, R102: where the core is Idle, the fetch at PC raises nothing and the two bytes at PC decode to `i`, a step is
exec of `i` at that state; nothing is added around it (R109). -/
def Obligations.StepRunsTheDecodedInstruction : Prop :=
  ∀ (s : State) (i : Instr), s.es = .idle → s.pc.toNat ≤ 0xFFE →
    (s.cfg.oddPcFetch = .fault → s.pc.toNat % 2 = 0) →
    decode [s.mem.read s.pc.toNat, s.mem.read (s.pc.toNat + 1)] = .ok (i, []) →
    step s = exec i s

/-- R101: the fetch is the big-endian word at PC; an odd PC under `ODD_PC_FETCH = fault` raises `AddressError(PC)`, a PC
above 0xFFE raises `AddressError(max(PC, 0x1000))`, and each leaves all state but ES unchanged. -/
def Obligations.FetchReadsBigEndianWordOrRaises : Prop :=
  ∀ s : State,
    ((s.cfg.oddPcFetch = .fault → s.pc.toNat % 2 = 0) → s.pc.toNat ≤ 0xFFE →
      ∃ w, fetch s = .ok w ∧
        w.toNat = (s.mem.read s.pc.toNat).toNat * 256 + (s.mem.read (s.pc.toNat + 1)).toNat) ∧
    (s.cfg.oddPcFetch = .fault → s.pc.toNat % 2 = 1 →
      fetch s = .error s.pc.toNat ∧ (s.es = .idle → step s = .next (haltOf .addressError s.pc.toNat s))) ∧
    ((s.cfg.oddPcFetch = .fault → s.pc.toNat % 2 = 0) → 0xFFE < s.pc.toNat →
      fetch s = .error (max s.pc.toNat 0x1000) ∧
        (s.es = .idle → step s = .next (haltOf .addressError (max s.pc.toNat 0x1000) s)))

/-- R86, R102, R202: a fetched illegal word halts the core with `UnknownOpcodeError(PC, w)` and executes nothing. -/
def Obligations.IllegalWordHaltsWithUnknownOpcode : Prop :=
  ∀ (s : State) (w : Word), s.es = .idle → fetch s = .ok w → illegalWord w = true →
    step s = .next (haltOf .unknownOpcodeError w.toNat s)

/-- R108: a step while AwaitingKey changes nothing and returns AwaitingKey, and only `resume_key` or `reset` leaves that
state. -/
def Obligations.KeyWaitIsLeftOnlyByResumeOrReset : Prop :=
  ∀ (s : State) (x : Nib), s.es = .awaitingKey x →
    step s = .next s ∧ perform .step s = .next (.awaitingKey, s) ∧
    ∀ (op : HostOp) (r : HostReply) (t : State), perform op s = .next (r, t) → t.es ≠ .awaitingKey x →
      op = .reset ∨ ∃ k, op = .resumeKey k

/-- R205: a step while Halted changes nothing and returns the same halt; `tick_timers` and `observe` still work; only
`skip_and_continue` or `reset` leaves the halt. -/
def Obligations.HaltIsLeftOnlyBySkipOrReset : Prop :=
  ∀ (s : State) (e : ErrorKind) (info : ErrorInfo), s.es = .halted e info →
    step s = .next s ∧ perform .step s = .next (.halted e info, s) ∧
    (∃ t, perform .tickTimers s = .next (.ok, t) ∧ t.dt.toNat = s.dt.toNat - 1 ∧ t.st.toNat = s.st.toNat - 1) ∧
    (∃ o, perform .observe s = .next (.observed o, s) ∧ o = s.observation) ∧
    ∀ (op : HostOp) (r : HostReply) (t : State), perform op s = .next (r, t) → t.es ≠ .halted e info →
      op = .reset ∨ op = .skipAndContinue

/-! ### Control flow -/

/-- R120: one `Display.Clear()` call, PC + 2, nothing else. -/
def Obligations.ClsCallsDisplayClearOnce : Prop :=
  decodeWord 0x00E0#16 = .ok .cls ∧
  ∀ s : State, ∃ t, exec .cls s = .next t ∧ t.calls = s.calls ++ [.clear] ∧ Sequential [.calls] s t

/-- R121: an empty stack raises `StackUnderflowError`; with 1 to 16 live entries `SP <- SP - 1`, `PC <- STACK[SP]`, the
entry keeps its value. -/
def Obligations.RetPopsOrRaisesUnderflow : Prop :=
  decodeWord 0x00EE#16 = .ok .ret ∧
  ∀ s : State,
    (s.sp.toNat = 0 → exec .ret s = .next (haltOf .stackUnderflowError 0 s)) ∧
    (1 ≤ s.sp.toNat → s.sp.toNat ≤ 16 →
      ∃ t, exec .ret s = .next t ∧ t.sp.toNat = s.sp.toNat - 1 ∧ s.stack[t.sp.toNat]? = some t.pc ∧
        UnchangedBut [.sp, .pc] s t)

/-- R122 and R161: `PC <- nnn`, and `PC <- nnn + V[0]` with no 12-bit wrap. -/
def Obligations.JumpsSetPc : Prop :=
  ∀ (nnn : Addr),
    decodeWord (wordNnn 0x1000#16 nnn) = .ok (.jp nnn) ∧ decodeWord (wordNnn 0xB000#16 nnn) = .ok (.jpV0 nnn) ∧
    ∀ s : State,
      (∃ t, exec (.jp nnn) s = .next t ∧ t.pc.toNat = nnn.toNat ∧ UnchangedBut [.pc] s t) ∧
      (∃ t, exec (.jpV0 nnn) s = .next t ∧ t.pc.toNat = nnn.toNat + (s.getV 0x0#4).toNat ∧
        UnchangedBut [.pc] s t)

/-- R123: 16 live entries raise `StackOverflowError`; otherwise `STACK[SP] <- PC + 2`, `SP <- SP + 1`, `PC <- nnn`. -/
def Obligations.CallPushesOrRaisesOverflow : Prop :=
  ∀ (nnn : Addr),
    decodeWord (wordNnn 0x2000#16 nnn) = .ok (.call nnn) ∧
    ∀ s : State,
      (s.sp.toNat = 16 → exec (.call nnn) s = .next (haltOf .stackOverflowError 0 s)) ∧
      (s.sp.toNat < 16 →
        ∃ t ra, exec (.call nnn) s = .next t ∧ t.pc.toNat = nnn.toNat ∧ t.sp.toNat = s.sp.toNat + 1 ∧
          t.stack[s.sp.toNat]? = some ra ∧ ra.toNat = (s.pc.toNat + 2) % 65536 ∧
          (∀ j, j ≠ s.sp.toNat → t.stack[j]? = s.stack[j]?) ∧ UnchangedBut [.pc, .sp, .stack] s t)

/-- R28, R121, R123: a return that finds the stack a call left goes to the word after the call and restores the
depth. -/
def Obligations.ReturnAfterCallResumesAfterTheCall : Prop :=
  ∀ (s t u : State) (nnn : Addr), s.sp.toNat < 16 → exec (.call nnn) s = .next t →
    u.sp = t.sp → u.stack = t.stack →
    ∃ r, exec .ret u = .next r ∧ r.pc.toNat = (s.pc.toNat + 2) % 65536 ∧ r.sp = s.sp ∧
      ∀ j, j < s.sp.toNat → r.stack[j]? = s.stack[j]?

/-- The model's choice where R27 gives SP no meaning (17 to 255 "are never produced"): CALL and RET stop by name (log
entry 7). -/
def Obligations.StackPointerPastSixteenStopsCallAndRet : Prop :=
  ∀ (s : State) (nnn : Addr), 16 < s.sp.toNat →
    exec (.call nnn) s = .fault .stackPointerOutOfRange ∧ exec .ret s = .fault .stackPointerOutOfRange

/-! ### Skips -/

/-- R130 to R133: the four skips compare as their rules say and write nothing but PC. -/
def Obligations.SkipsCompareAndMovePcOnly : Prop :=
  ∀ (x y : Nib) (kk : Byte),
    decodeWord (wordXkk 0x3000#16 x kk) = .ok (.seImm x kk) ∧
    decodeWord (wordXkk 0x4000#16 x kk) = .ok (.sneImm x kk) ∧
    decodeWord (wordXy 0x5000#16 x y) = .ok (.seReg x y) ∧
    decodeWord (wordXy 0x9000#16 x y) = .ok (.sneReg x y) ∧
    ∀ s : State,
      (∃ t, exec (.seImm x kk) s = .next t ∧ Skipping (s.getV x = kk) [] s t) ∧
      (∃ t, exec (.sneImm x kk) s = .next t ∧ Skipping (s.getV x ≠ kk) [] s t) ∧
      (∃ t, exec (.seReg x y) s = .next t ∧ Skipping (s.getV x = s.getV y) [] s t) ∧
      (∃ t, exec (.sneReg x y) s = .next t ∧ Skipping (s.getV x ≠ s.getV y) [] s t)

/-! ### ALU -/

/-- R140 to R142: `V[x] <- kk`, `V[x] <- (V[x] + kk) mod 256` with no carry written, `V[x] <- V[y]`. -/
def Obligations.SetAddImmediateAndAssignWriteOneRegister : Prop :=
  ∀ (x y : Nib) (kk : Byte),
    decodeWord (wordXkk 0x6000#16 x kk) = .ok (.ldImm x kk) ∧
    decodeWord (wordXkk 0x7000#16 x kk) = .ok (.addImm x kk) ∧
    decodeWord (wordXy 0x8000#16 x y) = .ok (.ldReg x y) ∧
    ∀ s : State,
      (∃ t, exec (.ldImm x kk) s = .next t ∧ WritesReg x kk.toNat s t) ∧
      (∃ t, exec (.addImm x kk) s = .next t ∧ WritesReg x (((s.getV x).toNat + kk.toNat) % 256) s t) ∧
      (∃ t, exec (.ldReg x y) s = .next t ∧ WritesReg x (s.getV y).toNat s t)

/-- R143 to R145: OR, AND and XOR of the two registers, VF written 0 exactly when `LOGIC_RESETS_VF`. -/
def Obligations.LogicOperationsAndTheirFlagReset : Prop :=
  ∀ (x y : Nib),
    decodeWord (wordXy 0x8001#16 x y) = .ok (.orReg x y) ∧
    decodeWord (wordXy 0x8002#16 x y) = .ok (.andReg x y) ∧
    decodeWord (wordXy 0x8003#16 x y) = .ok (.xorReg x y) ∧
    ∀ s : State,
      let a := (s.getV x).toNat
      let b := (s.getV y).toNat
      ∃ t₁ t₂ t₃, exec (.orReg x y) s = .next t₁ ∧ exec (.andReg x y) s = .next t₂ ∧
        exec (.xorReg x y) s = .next t₃ ∧
        (s.cfg.logicResetsVf = false →
          WritesReg x (a ||| b) s t₁ ∧ WritesReg x (a &&& b) s t₂ ∧ WritesReg x (a ^^^ b) s t₃) ∧
        (s.cfg.logicResetsVf = true →
          WritesRegThenFlag x (a ||| b) 0 s t₁ ∧ WritesRegThenFlag x (a &&& b) 0 s t₂ ∧
            WritesRegThenFlag x (a ^^^ b) 0 s t₃)

/-- R146: `V[x] <- sum mod 256`, then `VF <- 1 if sum > 255 else 0`. -/
def Obligations.AddWritesSumThenCarry : Prop :=
  ∀ (x y : Nib), decodeWord (wordXy 0x8004#16 x y) = .ok (.addReg x y) ∧
    ∀ s : State,
      let sum := (s.getV x).toNat + (s.getV y).toNat
      ∃ t, exec (.addReg x y) s = .next t ∧
        WritesRegThenFlag x (sum % 256) (if sum > 255 then 1 else 0) s t

/-- R147 and R149: `(a - b) mod 256`, then `VF <- 1 if a >= b else 0`; SUB has `a = V[x]`, SUBN has `a = V[y]`. -/
def Obligations.SubtractionsWriteDifferenceThenNotBorrow : Prop :=
  ∀ (x y : Nib),
    decodeWord (wordXy 0x8005#16 x y) = .ok (.sub x y) ∧ decodeWord (wordXy 0x8007#16 x y) = .ok (.subn x y) ∧
    ∀ s : State,
      let a := (s.getV x).toNat
      let b := (s.getV y).toNat
      (∃ t, exec (.sub x y) s = .next t ∧
        WritesRegThenFlag x (((a : Int) - b) % 256).toNat (if a ≥ b then 1 else 0) s t) ∧
      (∃ t, exec (.subn x y) s = .next t ∧
        WritesRegThenFlag x (((b : Int) - a) % 256).toNat (if b ≥ a then 1 else 0) s t)

/-- R148 and R150: the source is `V[y]` or `V[x]` by `SHIFT_SOURCE`; the result, then the bit shifted out. -/
def Obligations.ShiftsWriteResultThenShiftedOutBit : Prop :=
  ∀ (x y : Nib),
    decodeWord (wordXy 0x8006#16 x y) = .ok (.shr x y) ∧ decodeWord (wordXy 0x800E#16 x y) = .ok (.shl x y) ∧
    ∀ s : State,
      let source := if s.cfg.shiftSource = .vy then (s.getV y).toNat else (s.getV x).toNat
      (∃ t, exec (.shr x y) s = .next t ∧ WritesRegThenFlag x (source / 2) (source % 2) s t) ∧
      (∃ t, exec (.shl x y) s = .next t ∧ WritesRegThenFlag x (source * 2 % 256) (source / 128) s t)

/-! ### Index and random -/

/-- R160, R184, R185: `I <- nnn`, `I <- (I + V[x]) & 0xFFF`, `I <- (FONT_BASE + 5 * d) & 0xFFF` with `d` the low nibble;
VF is not written. -/
def Obligations.IndexInstructionsWriteIndex : Prop :=
  ∀ (nnn : Addr) (x : Nib),
    decodeWord (wordNnn 0xA000#16 nnn) = .ok (.ldI nnn) ∧ decodeWord (wordX 0xF01E#16 x) = .ok (.addI x) ∧
    decodeWord (wordX 0xF029#16 x) = .ok (.ldF x) ∧
    ∀ s : State,
      (∃ t, exec (.ldI nnn) s = .next t ∧ t.i.toNat = nnn.toNat ∧ Sequential [.i] s t) ∧
      (∃ t, exec (.addI x) s = .next t ∧ t.i.toNat = (s.i.toNat + (s.getV x).toNat) % 4096 ∧
        Sequential [.i] s t) ∧
      (∃ t, exec (.ldF x) s = .next t ∧
        t.i.toNat = (s.cfg.fontBase.toNat + 5 * ((s.getV x).toNat % 16)) % 4096 ∧ Sequential [.i] s t)

/-- R162: one `Random.Byte()` call, whatever it answers, masked with `kk` into `V[x]`. -/
def Obligations.RandomByteIsDrawnOnceAndMasked : Prop :=
  ∀ (x : Nib) (kk : Byte), decodeWord (wordXkk 0xC000#16 x kk) = .ok (.rnd x kk) ∧
    ∀ s : State, ∃ t r, exec (.rnd x kk) s = .next t ∧ t.calls = s.calls ++ [.randomByte r] ∧
      (t.getV x).toNat = r.toNat &&& kk.toNat ∧ RegsUnchangedBut [x] s t ∧ Sequential [.v, .calls] s t

/-! ### Display and input -/

/-- R170: the range error before any plot; else the plots of the pseudocode in its order, and VF the OR of the
answers. The premise `I <= 0xFFF` is the invariant of R24 and R40. -/
def Obligations.DrawMakesTheSpritePlotsAndOrsTheAnswers : Prop :=
  ∀ (x y n : Nib), decodeWord (wordXy 0xD000#16 x y ||| n.setWidth 16) = .ok (.drw x y n) ∧
    ∀ s : State, s.i.toNat ≤ 0xFFF →
      (n.toNat > 0 ∧ s.i.toNat + n.toNat - 1 > 0xFFF → exec (.drw x y n) s = .next (haltOf .addressError 0x1000 s)) ∧
      (n.toNat = 0 ∨ s.i.toNat + n.toNat - 1 ≤ 0xFFF →
        ∃ t new, exec (.drw x y n) s = .next t ∧ t.calls = s.calls ++ new ∧
          new.map plotArgs = (ruleR170Plots s x y n).map some ∧
          (t.getV 0xF#4).toNat = (if new.any answeredCollided then 1 else 0) ∧
          RegsUnchangedBut [0xF#4] s t ∧ Sequential [.v, .calls] s t)

/-- R216: with a positive display size every plot an instruction makes has `0 <= x < DISPLAY_W`, `0 <= y < DISPLAY_H`. -/
def Obligations.PlotsStayOnTheScreen : Prop :=
  ∀ (i : Instr) (s t : State), s.cfg.wellFormed = true → exec i s = .next t →
    ∃ new, t.calls = s.calls ++ new ∧
      ∀ x y on collided, PortCall.plot x y on collided ∈ new → x < s.cfg.displayW ∧ y < s.cfg.displayH

/-- R233: drawing rows of zero bytes leaves `VF = 0` with a conforming display (R216). -/
def Obligations.BlankSpriteNeverCollidesOnConformingDisplay : Prop :=
  ∀ (s t : State) (x y n : Nib), s.i.toNat + n.toNat ≤ 0x1000 →
    (∀ r, r < n.toNat → s.mem.read (s.i.toNat + r) = 0#8) →
    exec (.drw x y n) s = .next t → ConformingDisplay t.calls → t.getV 0xF#4 = 0#8

/-- R170, R216 (the display XORs): the same sprite drawn again in the same place restores every pixel of the display,
whatever the edge mode and whatever the display answered. The display is blank before the first call of the record (log
entry 21). -/
def Obligations.DrawingASpriteTwiceRestoresTheDisplay : Prop :=
  ∀ (s₁ t₁ s₂ t₂ : State) (x y n : Nib),
    exec (.drw x y n) s₁ = .next t₁ → exec (.drw x y n) s₂ = .next t₂ →
    s₂.calls = t₁.calls → s₂.cfg = s₁.cfg → s₂.i = s₁.i → s₂.getV x = s₁.getV x → s₂.getV y = s₁.getV y →
    (∀ a, s₂.mem.read a = s₁.mem.read a) →
    ∀ px py, displayPixel false t₂.calls px py = displayPixel false s₁.calls px py

/-- R171 and R172: one `Input.IsKeyDown` call on the low nibble of `V[x]`, the skip on its answer or on its
negation. -/
def Obligations.KeySkipsAskOnceAndSkipOnTheAnswer : Prop :=
  ∀ (x : Nib),
    decodeWord (wordX 0xE09E#16 x) = .ok (.skp x) ∧ decodeWord (wordX 0xE0A1#16 x) = .ok (.sknp x) ∧
    ∀ s : State,
      (∃ t k down, exec (.skp x) s = .next t ∧ t.calls = s.calls ++ [.isKeyDown k down] ∧
        k.toNat = (s.getV x).toNat % 16 ∧ Skipping (down = true) [.calls] s t) ∧
      (∃ t k down, exec (.sknp x) s = .next t ∧ t.calls = s.calls ++ [.isKeyDown k down] ∧
        k.toNat = (s.getV x).toNat % 16 ∧ Skipping (down = false) [.calls] s t)

/-! ### Timers, key wait, memory -/

/-- R180, R182, R183: `V[x] <- DT`, `DT <- V[x]`, `ST <- V[x]`; `sound_active` is `ST > 0` from the commit on. -/
def Obligations.TimerTransfers : Prop :=
  ∀ (x : Nib),
    decodeWord (wordX 0xF007#16 x) = .ok (.ldVxDt x) ∧ decodeWord (wordX 0xF015#16 x) = .ok (.ldDtVx x) ∧
    decodeWord (wordX 0xF018#16 x) = .ok (.ldStVx x) ∧
    ∀ s : State,
      (∃ t, exec (.ldVxDt x) s = .next t ∧ WritesReg x s.dt.toNat s t) ∧
      (∃ t, exec (.ldDtVx x) s = .next t ∧ t.dt = s.getV x ∧ Sequential [.dt] s t) ∧
      (∃ t, exec (.ldStVx x) s = .next t ∧ t.st = s.getV x ∧ (t.soundActive = true ↔ t.st.toNat > 0) ∧
        Sequential [.st] s t)

/-- R181: `Fx0A` only sets `ES = AwaitingKey(x)`; while waiting a step changes nothing and a tick still decrements the
timers; `resume_key(k)` then completes it with `V[x] <- k`, `PC + 2` and `ES = Idle`. -/
def Obligations.KeyWaitPausesAndResumeCompletesIt : Prop :=
  ∀ (x : Nib), decodeWord (wordX 0xF00A#16 x) = .ok (.ldVxK x) ∧
    ∀ (s : State), exec (.ldVxK x) s = .next { s with es := .awaitingKey x } ∧
      step { s with es := .awaitingKey x } = .next { s with es := .awaitingKey x } ∧
      (∃ u, perform .tickTimers { s with es := .awaitingKey x } = .next (.ok, u) ∧
        u.dt.toNat = s.dt.toNat - 1 ∧ u.st.toNat = s.st.toNat - 1 ∧ u.es = .awaitingKey x ∧
        UnchangedBut [.dt, .st, .es] s u) ∧
      ∀ (k : Nib), ∃ u, perform (.resumeKey k) { s with es := .awaitingKey x } = .next (.ok, u) ∧
        u.es = .idle ∧ (u.getV x).toNat = k.toNat ∧ RegsUnchangedBut [x] s u ∧ Sequential [.v, .es] s u

/-- R186: the range error before any write; else the three digits, hundreds first, at `I` to `I + 2`. The premises are
the invariant (R24, R40, log entry 8). -/
def Obligations.BcdStoresThreeDigits : Prop :=
  ∀ (x : Nib), decodeWord (wordX 0xF033#16 x) = .ok (.ldB x) ∧
    ∀ s : State, s.i.toNat ≤ 0xFFF → s.mem.wf = true →
      (s.i.toNat + 2 > 0xFFF → exec (.ldB x) s = .next (haltOf .addressError 0x1000 s)) ∧
      (s.i.toNat + 2 ≤ 0xFFF →
        ∃ t, exec (.ldB x) s = .next t ∧
          (t.mem.read s.i.toNat).toNat = (s.getV x).toNat / 100 ∧
          (t.mem.read (s.i.toNat + 1)).toNat = (s.getV x).toNat / 10 % 10 ∧
          (t.mem.read (s.i.toNat + 2)).toNat = (s.getV x).toNat % 10 ∧
          (∀ a, a < s.i.toNat ∨ s.i.toNat + 2 < a → t.mem.read a = s.mem.read a) ∧ Sequential [.mem] s t)

/-- R187: the range error before any write; else `MEM[I + j] <- V[j]` for `j` to `x`, every other byte unchanged, and I
advanced by `x + 1` exactly when `LOADSTORE_INCREMENTS_I`. The premises are the invariant (R24, R40, log entry 8). -/
def Obligations.StoreBlockWritesRegistersToMemory : Prop :=
  ∀ (x : Nib), decodeWord (wordX 0xF055#16 x) = .ok (.ldMemVx x) ∧
    ∀ s : State, s.i.toNat ≤ 0xFFF → s.mem.wf = true →
      (s.i.toNat + x.toNat > 0xFFF → exec (.ldMemVx x) s = .next (haltOf .addressError 0x1000 s)) ∧
      (s.i.toNat + x.toNat ≤ 0xFFF →
        ∃ t, exec (.ldMemVx x) s = .next t ∧
          (∀ j : Nib, j.toNat ≤ x.toNat → t.mem.read (s.i.toNat + j.toNat) = s.getV j) ∧
          (∀ a, a < s.i.toNat ∨ s.i.toNat + x.toNat < a → t.mem.read a = s.mem.read a) ∧
          t.i.toNat = (if s.cfg.loadstoreIncrementsI then (s.i.toNat + x.toNat + 1) % 4096 else s.i.toNat) ∧
          Sequential [.mem, .i] s t)

/-- R188: the range error before any read; else `V[j] <- MEM[I + j]` for `j` to `x`, every other register unchanged, and
I advanced by `x + 1` exactly when `LOADSTORE_INCREMENTS_I`. The premise is the invariant of R24 and R40. -/
def Obligations.LoadBlockReadsRegistersFromMemory : Prop :=
  ∀ (x : Nib), decodeWord (wordX 0xF065#16 x) = .ok (.ldVxMem x) ∧
    ∀ s : State, s.i.toNat ≤ 0xFFF →
      (s.i.toNat + x.toNat > 0xFFF → exec (.ldVxMem x) s = .next (haltOf .addressError 0x1000 s)) ∧
      (s.i.toNat + x.toNat ≤ 0xFFF →
        ∃ t, exec (.ldVxMem x) s = .next t ∧
          (∀ j : Nib, t.getV j = if j.toNat ≤ x.toNat then s.mem.read (s.i.toNat + j.toNat) else s.getV j) ∧
          t.i.toNat = (if s.cfg.loadstoreIncrementsI then (s.i.toNat + x.toNat + 1) % 4096 else s.i.toNat) ∧
          Sequential [.v, .i] s t)

/-! ### Host operations -/

/-- R210, R211: each nonzero timer is decremented, a timer at 0 stays 0, no other state changes, in every execution
state. -/
def Obligations.TickDecrementsNonzeroTimers : Prop :=
  ∀ s : State, ∃ t, perform .tickTimers s = .next (.ok, t) ∧
    t.dt.toNat = (if s.dt.toNat > 0 then s.dt.toNat - 1 else 0) ∧
    t.st.toNat = (if s.st.toNat > 0 then s.st.toNat - 1 else 0) ∧ UnchangedBut [.dt, .st] s t

/-- R206: from a halt `PC <- PC + 2` and `ES <- Idle`; otherwise `NotHalted` and no change. -/
def Obligations.SkipAndContinueLeavesTheHalt : Prop :=
  ∀ s : State,
    (∀ e info, s.es = .halted e info →
      ∃ t, perform .skipAndContinue s = .next (.ok, t) ∧ t.es = .idle ∧ Sequential [.es] s t) ∧
    ((∀ e info, s.es ≠ .halted e info) → perform .skipAndContinue s = .next (.notHalted, s))

/-- R213: while AwaitingKey(x), `V[x] <- k`, `PC <- PC + 2`, `ES <- Idle`; otherwise `NotAwaiting` and no change. -/
def Obligations.ResumeKeyWritesTheKey : Prop :=
  ∀ (s : State) (k : Nib),
    (∀ x, s.es = .awaitingKey x →
      ∃ t, perform (.resumeKey k) s = .next (.ok, t) ∧ t.es = .idle ∧ (t.getV x).toNat = k.toNat ∧
        RegsUnchangedBut [x] s t ∧ Sequential [.v, .es] s t) ∧
    ((∀ x, s.es ≠ .awaitingKey x) → perform (.resumeKey k) s = .next (.notAwaiting, s))

/-- R37, R230: reset succeeds in every state and leaves every piece of state at its reset value, the configuration as it
is, and makes no port call; the state right after reset in the reference configuration has PC 0x200. -/
def Obligations.ResetLeavesTheResetValues : Prop :=
  (∀ s : State, ∃ t, perform .reset s = .next (.ok, t) ∧
    (∀ a, t.mem.read a = 0#8) ∧ (∀ j, t.getV j = 0#8) ∧ t.i = 0#16 ∧ t.pc = s.cfg.entryPc ∧ t.sp = 0#8 ∧
    (∀ j, j < 16 → t.stack[j]? = some 0#16) ∧ t.dt = 0#8 ∧ t.st = 0#8 ∧ t.es = .idle ∧
    t.cfg = s.cfg ∧ t.calls = s.calls) ∧
  State.reset.pc = 0x200#16 ∧ ∃ t, perform .reset State.reset = .next (.ok, t) ∧ t = State.reset

/-- R63: length 0 does nothing; a program past 0xFFF is `ProgramTooLargeError` with nothing written; otherwise the bytes
are copied and nothing else changes. The premise is the invariant (log entry 8). -/
def Obligations.LoadProgramCopiesOrRefuses : Prop :=
  ∀ (s : State) (bytes : List Byte) (origin : Nat), s.mem.wf = true →
    (bytes.length = 0 → perform (.loadProgram bytes origin) s = .next (.ok, s)) ∧
    (bytes.length > 0 → origin + bytes.length - 1 > 0xFFF →
      perform (.loadProgram bytes origin) s = .next (.programTooLargeError, s)) ∧
    (bytes.length > 0 → origin + bytes.length - 1 ≤ 0xFFF →
      ∃ t, perform (.loadProgram bytes origin) s = .next (.ok, t) ∧
        (∀ j, (h : j < bytes.length) → t.mem.read (origin + j) = bytes[j]) ∧
        (∀ a, a < origin ∨ origin + bytes.length ≤ a → t.mem.read a = s.mem.read a) ∧ UnchangedBut [.mem] s t)

/-- R51, R53, R62: a host read in range gives the byte, a host write in range stores the value modulo 256 at that
address alone, and an address above 0xFFF is `AddressError(addr)` with no change. The premise is the invariant (log
entry 8). -/
def Obligations.HostByteAccessReadsAndWritesOneByte : Prop :=
  ∀ (s : State) (addr value : Nat), s.mem.wf = true →
    (addr ≤ 0xFFF →
      perform (.hostReadByte addr) s = .next (.byte (s.mem.read addr), s) ∧
      ∃ t, perform (.hostWriteByte addr value) s = .next (.ok, t) ∧ (t.mem.read addr).toNat = value % 256 ∧
        (∀ a, a ≠ addr → t.mem.read a = s.mem.read a) ∧ UnchangedBut [.mem] s t) ∧
    (addr > 0xFFF →
      perform (.hostReadByte addr) s = .next (.addressError addr, s) ∧
      perform (.hostWriteByte addr value) s = .next (.addressError addr, s))

/-- R232 to R234, R57: the boot sequence leaves the program at `PROGRAM_ORIGIN`, the standard font at `FONT_BASE` where
it was asked for, and the core Idle at `ENTRY_PC`; the two must not overlap. -/
def Obligations.BootPlacesFontAndProgram : Prop :=
  ∀ (s : State) (withFont : Bool) (rom : List Byte), s.cfg.wellFormed = true →
    s.cfg.programOrigin.toNat + rom.length ≤ 0x1000 →
    (s.cfg.fontBase.toNat + 80 ≤ s.cfg.programOrigin.toNat ∨
      s.cfg.programOrigin.toNat + rom.length ≤ s.cfg.fontBase.toNat) →
    ∃ t, runOps (bootOps s.cfg withFont rom) s = .next t ∧ t.es = .idle ∧ t.pc = s.cfg.entryPc ∧
      (∀ j, (h : j < rom.length) → t.mem.read (s.cfg.programOrigin.toNat + j) = rom[j]) ∧
      (withFont = true → ∀ j, (h : j < standardFont.length) →
        t.mem.read (s.cfg.fontBase.toNat + j) = standardFont[j])

/-! ### Rules of the whole machine -/

/-- R203: an operation that raises commits nothing. A step from Idle that halts changes only ES, records its PC, and
makes no port call; a host operation that reports an error changes nothing at all. -/
def Obligations.ErrorsCommitNothing : Prop :=
  (∀ (s t : State) (e : ErrorKind) (info : ErrorInfo), s.es = .idle → step s = .next t → t.es = .halted e info →
    t = { s with es := .halted e info } ∧ info.pc = s.pc) ∧
  (∀ (op : HostOp) (s t : State) (a : Nat), perform op s = .next (.addressError a, t) → t = s) ∧
  (∀ (op : HostOp) (s t : State), perform op s = .next (.programTooLargeError, t) → t = s)

/-- R201, R202: under the invariant every instruction either raises the one error R201 gives it, with the information of
R202, or commits; a commit leaves ES Idle, or AwaitingKey for `Fx0A`. -/
def Obligations.EveryInstructionCommitsUnlessR201Raises : Prop :=
  ∀ (i : Instr) (s : State), s.Inv → s.es = .idle →
    match ruleR201Error i s with
    | some (e, value) => exec i s = .next (haltOf e value s)
    | none => ∃ t, exec i s = .next t ∧ (t.es = .idle ∨ ∃ x, i = .ldVxK x ∧ t.es = .awaitingKey x)

/-- R104: an instruction that commits from Idle and stays Idle moves PC by the kind R104 gives it. -/
def Obligations.PcMovesByTheKindOfR104 : Prop :=
  ∀ (i : Instr) (s t : State), s.es = .idle → exec i s = .next t → t.es = .idle →
    match ruleR104Kind i with
    | .sequential => t.pc.toNat = (s.pc.toNat + 2) % 65536
    | .skip => t.pc.toNat = (s.pc.toNat + 2) % 65536 ∨ t.pc.toNat = (s.pc.toNat + 4) % 65536
    | .jump => ∃ nnn, (i = .jp nnn ∨ i = .call nnn) ∧ t.pc.toNat = nnn.toNat
    | .indexedJump => ∃ nnn, i = .jpV0 nnn ∧ t.pc.toNat = nnn.toNat + (s.getV 0x0#4).toNat
    | .ret => s.stack[t.sp.toNat]? = some t.pc
    | .wait => False

/-- R22, R35: a register changes only under the instructions listed for it; VF, the only flag, changes only as a
destination or under the flag writers. -/
def Obligations.RegistersChangeOnlyUnderTheirWriters : Prop :=
  ∀ (i : Instr) (s t : State) (j : Nib), exec i s = .next t → t.getV j ≠ s.getV j → ruleR22Writes s.cfg i j

/-- R24, R27, R29, R30: I changes only under its writers, SP and STACK only under CALL and RET, DT only under `Fx15`, ST
only under `Fx18`; so no step ticks a timer (R100). -/
def Obligations.SpecialRegistersChangeOnlyUnderTheirWriters : Prop :=
  ∀ (i : Instr) (s t : State), exec i s = .next t →
    (t.i ≠ s.i → ruleR24WritesI s.cfg i = true) ∧
    (t.sp ≠ s.sp → i = .ret ∨ ∃ nnn, i = .call nnn) ∧
    (t.stack ≠ s.stack → ∃ nnn, i = .call nnn) ∧
    (t.dt ≠ s.dt → ∃ x, i = .ldDtVx x) ∧
    (t.st ≠ s.st → ∃ x, i = .ldStVx x)

/-- R60: a byte of memory changes only under `Fx33` and `Fx55`, inside the range R60 gives them. -/
def Obligations.MemoryChangesOnlyUnderItsWriters : Prop :=
  ∀ (i : Instr) (s t : State) (a : Nat), exec i s = .next t → t.mem.read a ≠ s.mem.read a → ruleR60Writes s i a

/-- R103, R120, R162, R170 to R172: an instruction that halts the core makes no port call, and one that commits makes
exactly the calls of its rule. -/
def Obligations.PortCallsAreThoseOfTheRules : Prop :=
  ∀ (i : Instr) (s t : State), s.es = .idle → exec i s = .next t →
    ((∃ e info, t.es = .halted e info) → t.calls = s.calls) ∧
    ((∀ e info, t.es ≠ .halted e info) → ∃ new, t.calls = s.calls ++ new ∧ rulePortCalls s i new)

/-- R8: no operation changes the configuration. -/
def Obligations.NoOperationChangesTheConfiguration : Prop :=
  ∀ (op : HostOp) (s t : State) (r : HostReply), perform op s = .next (r, t) → t.cfg = s.cfg

/-- R67: a word that `Fx55` stores right after itself is the word the next step fetches. -/
def Obligations.StoredWordIsFetchedByTheNextStep : Prop :=
  ∀ (s : State) (x : Nib), s.es = .idle → s.mem.wf = true → s.pc.toNat % 2 = 0 → s.pc.toNat + 2 ≤ 0xFFE →
    fetch s = .ok (encode (.ldMemVx x)) → 1 ≤ x.toNat → s.i.toNat = s.pc.toNat + 2 →
    s.i.toNat + x.toNat ≤ 0xFFF →
    ∃ t w, step s = .next t ∧ t.pc.toNat = s.pc.toNat + 2 ∧ fetch t = .ok w ∧
      w.toNat = (s.getV 0x0#4).toNat * 256 + (s.getV 0x1#4).toNat

/-- R110, R122: a jump to its own address changes no state. -/
def Obligations.SelfJumpChangesNothing : Prop :=
  ∀ (s : State) (nnn : Addr), s.es = .idle → fetch s = .ok (encode (.jp nnn)) → nnn.toNat = s.pc.toNat →
    step s = .next s

/-- The word placed by `withFetchWord` is the one the very next step runs (R232; the model's loading convention, log
entries 11 and 12). The premise is the invariant (log entry 8). -/
def Obligations.PlacedWordIsRunByTheNextStep : Prop :=
  ∀ (s : State) (w : Nat) (i : Instr), s.mem.wf = true → decodeTableWord 16 w = some i →
    step (s.withFetchWord 16 w) = exec i (s.withFetchWord 16 w)

/-! ### Invariants and safety -/

/-- R37, R40: the reset state of every configuration meets the invariants, and so does the machine's reset state. -/
def Obligations.ResetMeetsTheInvariants : Prop :=
  (∀ c : Config, (State.resetWith c).Inv ∧ (State.resetWith c).waitsAtKeyInstr = true) ∧
  Sys2Proof.core.reset = State.resetWith Config.reference

/-- R40: from every state that meets the invariant a step gives a state that meets it. -/
def Obligations.StepKeepsTheInvariant : Prop :=
  ∀ s t : State, s.Inv → step s = .next t → t.Inv

/-- R38, R40, R203: every host operation keeps the invariant. -/
def Obligations.EveryOperationKeepsTheInvariant : Prop :=
  ∀ (op : HostOp) (s t : State) (r : HostReply), s.Inv → perform op s = .next (r, t) → t.Inv

/-- R40, R181, R236: while the core waits for a key the word at PC is the `Fx0A` it waits at; every operation but a host
write to memory keeps it so. -/
def Obligations.KeyWaitStandsAtItsInstruction : Prop :=
  ∀ (op : HostOp) (s t : State) (r : HostReply), s.waitsAtKeyInstr = true → op.writesMemory = false →
    perform op s = .next (r, t) → t.waitsAtKeyInstr = true

/-- R12, R40, R100: under the invariant a step always ends in a next state, never in a fault or a refusal. -/
def Obligations.StepAlwaysAnswersUnderTheInvariant : Prop :=
  ∀ s : State, s.Inv → ∃ t, step s = .next t

/-- R6, R40, R110: every sequence of host operations from reset, in every configuration, is performed to its end, keeps
the invariant and the configuration. Its step lemmas are `EveryOperationKeepsTheInvariant` and
`StepAlwaysAnswersUnderTheInvariant`. -/
def Obligations.EveryRunFromResetIsSafe : Prop :=
  ∀ (c : Config) (ops : List HostOp), SafeRun ops (State.resetWith c) ∧
    ∀ t, runOps ops (State.resetWith c) = .next t → t.Inv ∧ t.cfg = c

/-- The canonical form of memory (the model's representation, log entry 8): two memories in it that read alike are
equal data. -/
def Obligations.CanonicalMemoriesThatReadAlikeAreEqual : Prop :=
  ∀ m m' : Memory, m.wf = true → m'.wf = true → (∀ a, m.read a = m'.read a) → m = m'

/-- R54, with the byte order of R52 and R53: an access of `n >= 1` bytes past 0xFFF raises `AddressError(max(addr,
0x1000))` and touches nothing; one in range reads, or writes, the big-endian value of its bytes and no other byte. The
canonical form, as premise and as conclusion, is the model's representation (log entry 8). -/
def Obligations.MultiByteAccessesAreCheckedWholeAndBigEndian : Prop :=
  ∀ (m : Memory) (addr n v : Nat), m.wf = true → 1 ≤ n →
    (addr + n - 1 > 0xFFF →
      memRead m addr n = .error (max addr 0x1000) ∧ memWrite m addr n v = .error (max addr 0x1000)) ∧
    (addr + n - 1 ≤ 0xFFF →
      (∃ value, memRead m addr n = .ok value ∧ value < 256 ^ n ∧
        ∀ j, j < n → (m.read (addr + j)).toNat = value / 256 ^ (n - 1 - j) % 256) ∧
      (∃ m', memWrite m addr n v = .ok m' ∧ m'.wf = true ∧
        (∀ j, j < n → (m'.read (addr + j)).toNat = v / 256 ^ (n - 1 - j) % 256) ∧
        ∀ a, a < addr ∨ addr + n ≤ a → m'.read a = m.read a))
end

