-- ==== Sys2Proof/Laws/Encoding.lean ====
section
/-! SUPPORT. Each field read back from each format (spec/30_encoding.md R81, R83), and a word put together again from
its fields. -/

namespace Sys2Proof

/-! ### Format nnn -/

@[simp] theorem fieldOp_formatNnn (op : Nib) (nnn : Addr) : fieldOp (formatNnn op nnn) = op := by
  ext i hi
  simp only [fieldOp, formatNnn]
  interval_cases i <;> simp

@[simp] theorem fieldNNN_formatNnn (op : Nib) (nnn : Addr) : fieldNNN (formatNnn op nnn) = nnn := by
  ext i hi
  simp only [fieldNNN, formatNnn]
  interval_cases i <;> simp

/-! ### Formats xkk and xf -/

@[simp] theorem fieldOp_formatXkk (op x : Nib) (kk : Byte) : fieldOp (formatXkk op x kk) = op := by
  ext i hi
  simp only [fieldOp, formatXkk]
  interval_cases i <;> simp

@[simp] theorem fieldX_formatXkk (op x : Nib) (kk : Byte) : fieldX (formatXkk op x kk) = x := by
  ext i hi
  simp only [fieldX, formatXkk]
  interval_cases i <;> simp

@[simp] theorem fieldKK_formatXkk (op x : Nib) (kk : Byte) : fieldKK (formatXkk op x kk) = kk := by
  ext i hi
  simp only [fieldKK, formatXkk]
  interval_cases i <;> simp

/-! ### Formats xy0, xyf and xyn -/

@[simp] theorem fieldOp_formatXyn (op x y n : Nib) : fieldOp (formatXyn op x y n) = op := by
  ext i hi
  simp only [fieldOp, formatXyn]
  interval_cases i <;> simp

@[simp] theorem fieldX_formatXyn (op x y n : Nib) : fieldX (formatXyn op x y n) = x := by
  ext i hi
  simp only [fieldX, formatXyn]
  interval_cases i <;> simp

@[simp] theorem fieldY_formatXyn (op x y n : Nib) : fieldY (formatXyn op x y n) = y := by
  ext i hi
  simp only [fieldY, formatXyn]
  interval_cases i <;> simp

@[simp] theorem fieldN_formatXyn (op x y n : Nib) : fieldN (formatXyn op x y n) = n := by
  ext i hi
  simp only [fieldN, formatXyn]
  interval_cases i <;> simp

/-! ### A word from its fields -/

theorem formatXyn_fields (w : Word) : formatXyn (fieldOp w) (fieldX w) (fieldY w) (fieldN w) = w := by
  ext i hi
  simp only [fieldOp, fieldX, fieldY, fieldN, formatXyn]
  interval_cases i <;> simp

theorem formatXkk_fields (w : Word) : formatXkk (fieldOp w) (fieldX w) (fieldKK w) = w := by
  ext i hi
  simp only [fieldOp, fieldX, fieldKK, formatXkk]
  interval_cases i <;> simp

theorem formatNnn_fields (w : Word) : formatNnn (fieldOp w) (fieldNNN w) = w := by
  ext i hi
  simp only [fieldOp, fieldNNN, formatNnn]
  interval_cases i <;> simp

/-! ### Cases on a nibble, and fields as numbers -/

/-- A property of all 16 nibbles. -/
theorem nib_cases (P : Nib → Prop) (h0 : P 0x0#4) (h1 : P 0x1#4) (h2 : P 0x2#4) (h3 : P 0x3#4) (h4 : P 0x4#4)
    (h5 : P 0x5#4) (h6 : P 0x6#4) (h7 : P 0x7#4) (h8 : P 0x8#4) (h9 : P 0x9#4) (hA : P 0xA#4) (hB : P 0xB#4)
    (hC : P 0xC#4) (hD : P 0xD#4) (hE : P 0xE#4) (hF : P 0xF#4) (x : Nib) : P x := by
  obtain ⟨⟨j, hj⟩⟩ := x
  change j < 16 at hj
  interval_cases j <;> assumption

/-- A byte's number names the byte. -/
theorem byte_toNat_eq (b : Byte) (n : Nat) (hn : n < 256) : b.toNat = n ↔ b = BitVec.ofNat 8 n := by
  constructor
  · intro h
    apply BitVec.eq_of_toNat_eq
    rw [BitVec.toNat_ofNat, h, Nat.mod_eq_of_lt hn]
  · intro h
    rw [h, BitVec.toNat_ofNat, Nat.mod_eq_of_lt hn]

theorem toNat_fieldOp (w : Word) : (fieldOp w).toNat = w.toNat / 0x1000 := by
  have := w.isLt
  simp [fieldOp, BitVec.extractLsb'_toNat, Nat.shiftRight_eq_div_pow]
  omega

theorem toNat_fieldN (w : Word) : (fieldN w).toNat = w.toNat % 0x10 := by
  simp [fieldN, BitVec.extractLsb'_toNat]

theorem toNat_fieldKK (w : Word) : (fieldKK w).toNat = w.toNat % 0x100 := by
  simp [fieldKK, BitVec.extractLsb'_toNat]

/-! ### Bytes -/

/-- The bytes of a word give it back (R58, R80). -/
@[simp] theorem wordOfBytes_bytes (w : Word) : wordOfBytes (w.extractLsb' 8 8) (w.extractLsb' 0 8) = w := by
  ext i hi
  simp only [wordOfBytes]
  interval_cases i <;> simp

/-- Decoding the bytes of a word is decoding the word, with the rest left over. -/
theorem decode_bytesOfWord (w : Word) (rest : List Byte) :
    decode (bytesOfWord w ++ rest) =
      match decodeWord w with
      | .ok i => .ok (i, rest)
      | .error e => .error e := by
  cases h : decodeWord w <;> simp [bytesOfWord, decode, h]

/-! ### The fixed bits of a table row -/

theorem formatNnn_and (op : Nib) (nnn : Addr) :
    formatNnn op nnn &&& 0xF000#16 = formatNnn op 0#12 := by
  ext i hi
  simp only [formatNnn]
  interval_cases i <;> simp

theorem formatXkk_and (op x : Nib) (kk : Byte) :
    formatXkk op x kk &&& 0xF000#16 = formatXkk op 0#4 0#8 := by
  ext i hi
  simp only [formatXkk]
  interval_cases i <;> simp

theorem formatXf_and (op x : Nib) (f : Byte) :
    formatXkk op x f &&& 0xF0FF#16 = formatXkk op 0#4 f := by
  ext i hi
  simp only [formatXkk]
  interval_cases i <;> simp

theorem formatXyf_and (op x y f : Nib) :
    formatXyn op x y f &&& 0xF00F#16 = formatXyn op 0#4 0#4 f := by
  ext i hi
  simp only [formatXyn]
  interval_cases i <;> simp

theorem formatXyn_and (op x y n : Nib) :
    formatXyn op x y n &&& 0xF000#16 = formatXyn op 0#4 0#4 0#4 := by
  ext i hi
  simp only [formatXyn]
  interval_cases i <;> simp

end Sys2Proof
end

