-- ==== Sys2Proof/Laws/Memory.lean ====
section
/-! SUPPORT. The laws of memory: read after write, the canonical form is kept and makes equal memories equal lists, the
blocks of bytes, and what the checked accesses of spec/20_memory.md answer. -/

namespace Sys2Proof.Machine

/-! ### One byte -/

theorem Memory.read_cons (b : Nat) (u : Byte) (m : Memory) (a : Nat) :
    Memory.read ((b, u) :: m) a = if a = b then u else Memory.read m a := rfl

/-- Below its first possible address a canonical memory reads as unlisted. -/
theorem Memory.read_below {lo a : Nat} {m : Memory} (h : Memory.wfFrom lo m = true) (ha : a < lo) :
    m.read a = Memory.unlisted := by
  induction m generalizing lo with
  | nil => rfl
  | cons c m ih =>
    obtain ⟨b, u⟩ := c
    simp only [Memory.wfFrom, Bool.and_eq_true, decide_eq_true_eq] at h
    have hne : a ≠ b := by omega
    simp only [Memory.read_cons, hne, if_false]
    exact ih h.2 (by omega)

theorem Memory.wfFrom_mono {lo lo' : Nat} {m : Memory} (h : Memory.wfFrom lo m = true) (hl : lo' ≤ lo) :
    Memory.wfFrom lo' m = true := by
  cases m with
  | nil => rfl
  | cons c m =>
    obtain ⟨b, u⟩ := c
    simp only [Memory.wfFrom, Bool.and_eq_true, decide_eq_true_eq] at h ⊢
    exact ⟨⟨⟨by omega, h.1.1.2⟩, h.1.2⟩, h.2⟩

/-- A write leaves every other address alone. -/
theorem Memory.read_write_other (m : Memory) (a b : Nat) (u : Byte) (h : b ≠ a) :
    (m.write a u).read b = m.read b := by
  induction m with
  | nil =>
    simp only [Memory.write]
    split
    · rfl
    · simp [Memory.read, h]
  | cons c m ih =>
    obtain ⟨k, w⟩ := c
    simp only [Memory.write]
    split
    · split
      · rfl
      · simp [Memory.read_cons, h]
    · split
      · rename_i hk
        subst hk
        split <;> simp [Memory.read_cons, h]
      · simp [Memory.read_cons, ih]

theorem Memory.read_write_same_from {lo : Nat} {m : Memory} (hm : Memory.wfFrom lo m = true) (a : Nat) (u : Byte) :
    (m.write a u).read a = u := by
  induction m generalizing lo with
  | nil =>
    simp only [Memory.write]
    split
    · rename_i h; simp [Memory.read, h]
    · simp [Memory.read]
  | cons c m ih =>
    obtain ⟨k, w⟩ := c
    have hm' := hm
    simp only [Memory.wfFrom, Bool.and_eq_true, decide_eq_true_eq] at hm'
    simp only [Memory.write]
    split
    · rename_i hlt
      split
      · rename_i hu
        have hne : a ≠ k := by omega
        simp only [Memory.read_cons, hne, if_false]
        rw [Memory.read_below hm'.2 (by omega), hu]
      · simp [Memory.read_cons]
    · split
      · rename_i hk
        split
        · rename_i hu
          rw [Memory.read_below hm'.2 (by omega), hu]
        · simp [Memory.read_cons, hk]
      · rename_i hk
        simp only [Memory.read_cons, hk, if_false]
        exact ih hm'.2

/-- A read after a write to the same address gives the value written. -/
theorem Memory.read_write_same {m : Memory} (hm : m.wf = true) (a : Nat) (u : Byte) :
    (m.write a u).read a = u := Memory.read_write_same_from hm a u

theorem Memory.read_write {m : Memory} (hm : m.wf = true) (a b : Nat) (u : Byte) :
    (m.write a u).read b = if b = a then u else m.read b := by
  split
  · rename_i h; subst h; exact Memory.read_write_same hm b u
  · rename_i h; exact Memory.read_write_other m a b u h

theorem Memory.wfFrom_write {lo : Nat} {m : Memory} (hm : Memory.wfFrom lo m = true) (a : Nat) (u : Byte)
    (hlo : lo ≤ a) (ha : a ≤ lastAddress) : Memory.wfFrom lo (m.write a u) = true := by
  induction m generalizing lo with
  | nil =>
    simp only [Memory.write]
    split
    · rfl
    · rename_i hu; simp [Memory.wfFrom, hlo, ha, hu]
  | cons c m ih =>
    obtain ⟨k, w⟩ := c
    have hm' := hm
    simp only [Memory.wfFrom, Bool.and_eq_true, decide_eq_true_eq] at hm'
    obtain ⟨⟨⟨h1, h2⟩, h3⟩, h4⟩ := hm'
    simp only [Memory.write]
    split
    · rename_i hlt
      split
      · exact hm
      · rename_i hu
        simp only [Memory.wfFrom, Bool.and_eq_true, decide_eq_true_eq]
        exact ⟨⟨⟨hlo, ha⟩, hu⟩, ⟨⟨by omega, h2⟩, h3⟩, h4⟩
    · split
      · split
        · exact Memory.wfFrom_mono h4 (by omega)
        · rename_i hu
          simp only [Memory.wfFrom, Bool.and_eq_true, decide_eq_true_eq]
          exact ⟨⟨⟨h1, h2⟩, hu⟩, h4⟩
      · simp only [Memory.wfFrom, Bool.and_eq_true, decide_eq_true_eq]
        exact ⟨⟨⟨h1, h2⟩, h3⟩, ih h4 (by omega)⟩

/-- A write inside memory keeps the canonical form. -/
theorem Memory.wf_write {m : Memory} (hm : m.wf = true) (a : Nat) (u : Byte) (ha : a ≤ lastAddress) :
    (m.write a u).wf = true := Memory.wfFrom_write hm a u (Nat.zero_le a) ha

theorem Memory.wf_nil : Memory.wf [] = true := rfl

/-! ### Blocks of bytes -/

theorem Memory.wf_storeBytes {m : Memory} (hm : m.wf = true) (a : Nat) (bs : List Byte)
    (h : a + bs.length ≤ lastAddress + 1) : (m.storeBytes a bs).wf = true := by
  induction bs generalizing m a with
  | nil => exact hm
  | cons b bs ih =>
    simp only [List.length_cons] at h
    exact ih (Memory.wf_write hm a b (by omega)) (a + 1) (by omega)

/-- A block store leaves every address outside the block alone. -/
theorem Memory.read_storeBytes_outside (m : Memory) (a b : Nat) (bs : List Byte)
    (h : b < a ∨ a + bs.length ≤ b) : (m.storeBytes a bs).read b = m.read b := by
  induction bs generalizing m a with
  | nil => rfl
  | cons c bs ih =>
    simp only [List.length_cons] at h
    simp only [Memory.storeBytes]
    rw [ih (m.write a c) (a + 1) (by omega), Memory.read_write_other m a b c (by omega)]

/-- A block store puts byte `j` at address `a + j`. -/
theorem Memory.read_storeBytes_inside {m : Memory} (hm : m.wf = true) (a : Nat) (bs : List Byte)
    (h : a + bs.length ≤ lastAddress + 1) (j : Nat) (hj : j < bs.length) :
    (m.storeBytes a bs).read (a + j) = bs[j] := by
  induction bs generalizing m a j with
  | nil => simp at hj
  | cons c bs ih =>
    simp only [List.length_cons] at h hj
    simp only [Memory.storeBytes]
    cases j with
    | zero =>
      rw [Memory.read_storeBytes_outside _ _ _ _ (by omega)]
      simpa using Memory.read_write_same hm a c
    | succ j =>
      have := ih (Memory.wf_write hm a c (by omega)) (a + 1) (by omega) j (by omega)
      simpa [Nat.add_assoc, Nat.add_comm 1 j] using this

@[simp] theorem Memory.length_loadBytes (m : Memory) (a n : Nat) : (m.loadBytes a n).length = n := by
  induction n generalizing a with
  | zero => rfl
  | succ n ih => simp [Memory.loadBytes, ih]

/-- Byte `j` of a block load is the byte at address `a + j`. -/
theorem Memory.getElem_loadBytes (m : Memory) (a n j : Nat) (hj : j < (m.loadBytes a n).length) :
    (m.loadBytes a n)[j] = m.read (a + j) := by
  induction n generalizing a j with
  | zero => simp at hj
  | succ n ih =>
    cases j with
    | zero => rfl
    | succ j =>
      simp only [Memory.loadBytes, List.getElem_cons_succ]
      rw [ih]
      congr 1
      omega

/-! ### The checked accesses -/

/-- The range check passes exactly on the accesses that end at or below 0xFFF (R54). -/
theorem rangeError_eq_none (addr n : Nat) : rangeError addr n = none ↔ addr + n - 1 ≤ 0xFFF := by
  simp [rangeError, lastAddress]

/-- Otherwise `AddressError` carries `max(addr, 0x1000)` (R54). -/
theorem rangeError_eq_some (addr n a : Nat) :
    rangeError addr n = some a ↔ 0xFFF < addr + n - 1 ∧ a = max addr 0x1000 := by
  unfold rangeError lastAddress
  by_cases h : addr + n - 1 ≤ 0xFFF
  · simp [h]
  · simp only [h, if_false, Option.some.injEq]
    omega

/-- `read_word` is the two bytes, the one at `addr` high (R52, R58). -/
theorem readWord_eq (m : Memory) (addr : Nat) :
    readWord m addr =
      if addr + 1 ≤ 0xFFF then .ok (wordOfBytes (m.read addr) (m.read (addr + 1)))
      else .error (max addr 0x1000) := by
  unfold readWord memRead rangeError lastAddress
  by_cases hc : addr + 1 ≤ 0xFFF
  · simp only [hc, Nat.add_one_sub_one, if_true, Memory.loadBytes, valueOfBytes, List.foldl_cons, List.foldl_nil,
      Except.ok.injEq]
    apply BitVec.eq_of_toNat_eq
    have h1 := (m.read addr).isLt
    have h2 := (m.read (addr + 1)).isLt
    simp only [wordOfBytes, BitVec.toNat_or, BitVec.toNat_shiftLeft, BitVec.toNat_setWidth, BitVec.toNat_ofNat]
    rw [Nat.mod_eq_of_lt (a := (m.read addr).toNat) (by omega),
      Nat.mod_eq_of_lt (a := (m.read (addr + 1)).toNat) (by omega),
      Nat.mod_eq_of_lt (a := (m.read addr).toNat <<< 8) (by rw [Nat.shiftLeft_eq]; omega),
      ← Nat.shiftLeft_add_eq_or_of_lt h2, Nat.shiftLeft_eq]
    omega
  · simp [hc]

/-- `read_byte` is the byte at `addr` (R51). -/
theorem readByte_eq (m : Memory) (addr : Nat) :
    readByte m addr = if addr ≤ 0xFFF then .ok (m.read addr) else .error addr := by
  unfold readByte memRead rangeError lastAddress
  by_cases hc : addr ≤ 0xFFF
  · simp [hc, Memory.loadBytes, valueOfBytes]
  · have : max addr 0x1000 = addr := by omega
    simp [hc, this]

/-- `write_byte` stores the value modulo 256 (R53). -/
theorem writeByte_eq (m : Memory) (addr value : Nat) :
    writeByte m addr value =
      if addr ≤ 0xFFF then .ok (m.write addr (BitVec.ofNat 8 value)) else .error addr := by
  unfold writeByte memWrite rangeError lastAddress
  by_cases hc : addr ≤ 0xFFF
  · simp [hc, bytesOfValue, Memory.storeBytes]
  · have : max addr 0x1000 = addr := by omega
    simp [hc, this]

theorem memWrite_wf {m m' : Memory} (hm : m.wf = true) (addr n v : Nat) (hn : 1 ≤ n)
    (h : memWrite m addr n v = .ok m') : m'.wf = true := by
  unfold memWrite at h
  split at h
  · simp at h
  · rename_i hr
    rw [rangeError_eq_none] at hr
    simp at h
    subst h
    apply Memory.wf_storeBytes hm
    have : (bytesOfValue n v).length = n := by
      clear hr
      induction n with
      | zero => rfl
      | succ k ih =>
        cases k with
        | zero => rfl
        | succ k => simpa [bytesOfValue] using ih (by omega)
    simp only [this, lastAddress]
    omega

end Sys2Proof.Machine
end

