-- ==== Sys2Proof/Laws/State.lean ====
section
/-! SUPPORT. One lemma per field per update of State, true by rfl, so that no later proof unfolds a record update; and
what reading a register gives after each update. -/

namespace Sys2Proof.Machine

/-! ### setV -/

@[simp] theorem State.setV_mem (s : State) (x : Nib) (b : Byte) : (s.setV x b).mem = s.mem := rfl
@[simp] theorem State.setV_v (s : State) (x : Nib) (b : Byte) : (s.setV x b).v = s.v.set x.toNat b x.isLt := rfl
@[simp] theorem State.setV_i (s : State) (x : Nib) (b : Byte) : (s.setV x b).i = s.i := rfl
@[simp] theorem State.setV_pc (s : State) (x : Nib) (b : Byte) : (s.setV x b).pc = s.pc := rfl
@[simp] theorem State.setV_sp (s : State) (x : Nib) (b : Byte) : (s.setV x b).sp = s.sp := rfl
@[simp] theorem State.setV_stack (s : State) (x : Nib) (b : Byte) : (s.setV x b).stack = s.stack := rfl
@[simp] theorem State.setV_dt (s : State) (x : Nib) (b : Byte) : (s.setV x b).dt = s.dt := rfl
@[simp] theorem State.setV_st (s : State) (x : Nib) (b : Byte) : (s.setV x b).st = s.st := rfl
@[simp] theorem State.setV_es (s : State) (x : Nib) (b : Byte) : (s.setV x b).es = s.es := rfl
@[simp] theorem State.setV_cfg (s : State) (x : Nib) (b : Byte) : (s.setV x b).cfg = s.cfg := rfl
@[simp] theorem State.setV_calls (s : State) (x : Nib) (b : Byte) : (s.setV x b).calls = s.calls := rfl

/-! ### setVF -/

@[simp] theorem State.setVF_mem (s : State) (b : Byte) : (s.setVF b).mem = s.mem := rfl
@[simp] theorem State.setVF_i (s : State) (b : Byte) : (s.setVF b).i = s.i := rfl
@[simp] theorem State.setVF_pc (s : State) (b : Byte) : (s.setVF b).pc = s.pc := rfl
@[simp] theorem State.setVF_sp (s : State) (b : Byte) : (s.setVF b).sp = s.sp := rfl
@[simp] theorem State.setVF_stack (s : State) (b : Byte) : (s.setVF b).stack = s.stack := rfl
@[simp] theorem State.setVF_dt (s : State) (b : Byte) : (s.setVF b).dt = s.dt := rfl
@[simp] theorem State.setVF_st (s : State) (b : Byte) : (s.setVF b).st = s.st := rfl
@[simp] theorem State.setVF_es (s : State) (b : Byte) : (s.setVF b).es = s.es := rfl
@[simp] theorem State.setVF_cfg (s : State) (b : Byte) : (s.setVF b).cfg = s.cfg := rfl
@[simp] theorem State.setVF_calls (s : State) (b : Byte) : (s.setVF b).calls = s.calls := rfl

/-! ### setI -/

@[simp] theorem State.setI_mem (s : State) (w : Word) : (s.setI w).mem = s.mem := rfl
@[simp] theorem State.setI_v (s : State) (w : Word) : (s.setI w).v = s.v := rfl
@[simp] theorem State.setI_i (s : State) (w : Word) : (s.setI w).i = w &&& 0x0FFF#16 := rfl
@[simp] theorem State.setI_pc (s : State) (w : Word) : (s.setI w).pc = s.pc := rfl
@[simp] theorem State.setI_sp (s : State) (w : Word) : (s.setI w).sp = s.sp := rfl
@[simp] theorem State.setI_stack (s : State) (w : Word) : (s.setI w).stack = s.stack := rfl
@[simp] theorem State.setI_dt (s : State) (w : Word) : (s.setI w).dt = s.dt := rfl
@[simp] theorem State.setI_st (s : State) (w : Word) : (s.setI w).st = s.st := rfl
@[simp] theorem State.setI_es (s : State) (w : Word) : (s.setI w).es = s.es := rfl
@[simp] theorem State.setI_cfg (s : State) (w : Word) : (s.setI w).cfg = s.cfg := rfl
@[simp] theorem State.setI_calls (s : State) (w : Word) : (s.setI w).calls = s.calls := rfl
@[simp] theorem State.setI_getV (s : State) (w : Word) (y : Nib) : (s.setI w).getV y = s.getV y := rfl

/-! ### setDT -/

@[simp] theorem State.setDT_mem (s : State) (b : Byte) : (s.setDT b).mem = s.mem := rfl
@[simp] theorem State.setDT_v (s : State) (b : Byte) : (s.setDT b).v = s.v := rfl
@[simp] theorem State.setDT_i (s : State) (b : Byte) : (s.setDT b).i = s.i := rfl
@[simp] theorem State.setDT_pc (s : State) (b : Byte) : (s.setDT b).pc = s.pc := rfl
@[simp] theorem State.setDT_sp (s : State) (b : Byte) : (s.setDT b).sp = s.sp := rfl
@[simp] theorem State.setDT_stack (s : State) (b : Byte) : (s.setDT b).stack = s.stack := rfl
@[simp] theorem State.setDT_dt (s : State) (b : Byte) : (s.setDT b).dt = b := rfl
@[simp] theorem State.setDT_st (s : State) (b : Byte) : (s.setDT b).st = s.st := rfl
@[simp] theorem State.setDT_es (s : State) (b : Byte) : (s.setDT b).es = s.es := rfl
@[simp] theorem State.setDT_cfg (s : State) (b : Byte) : (s.setDT b).cfg = s.cfg := rfl
@[simp] theorem State.setDT_calls (s : State) (b : Byte) : (s.setDT b).calls = s.calls := rfl
@[simp] theorem State.setDT_getV (s : State) (b : Byte) (y : Nib) : (s.setDT b).getV y = s.getV y := rfl

/-! ### setST -/

@[simp] theorem State.setST_mem (s : State) (b : Byte) : (s.setST b).mem = s.mem := rfl
@[simp] theorem State.setST_v (s : State) (b : Byte) : (s.setST b).v = s.v := rfl
@[simp] theorem State.setST_i (s : State) (b : Byte) : (s.setST b).i = s.i := rfl
@[simp] theorem State.setST_pc (s : State) (b : Byte) : (s.setST b).pc = s.pc := rfl
@[simp] theorem State.setST_sp (s : State) (b : Byte) : (s.setST b).sp = s.sp := rfl
@[simp] theorem State.setST_stack (s : State) (b : Byte) : (s.setST b).stack = s.stack := rfl
@[simp] theorem State.setST_dt (s : State) (b : Byte) : (s.setST b).dt = s.dt := rfl
@[simp] theorem State.setST_st (s : State) (b : Byte) : (s.setST b).st = b := rfl
@[simp] theorem State.setST_es (s : State) (b : Byte) : (s.setST b).es = s.es := rfl
@[simp] theorem State.setST_cfg (s : State) (b : Byte) : (s.setST b).cfg = s.cfg := rfl
@[simp] theorem State.setST_calls (s : State) (b : Byte) : (s.setST b).calls = s.calls := rfl
@[simp] theorem State.setST_getV (s : State) (b : Byte) (y : Nib) : (s.setST b).getV y = s.getV y := rfl

/-! ### setMem -/

@[simp] theorem State.setMem_mem (s : State) (m : Memory) : (s.setMem m).mem = m := rfl
@[simp] theorem State.setMem_v (s : State) (m : Memory) : (s.setMem m).v = s.v := rfl
@[simp] theorem State.setMem_i (s : State) (m : Memory) : (s.setMem m).i = s.i := rfl
@[simp] theorem State.setMem_pc (s : State) (m : Memory) : (s.setMem m).pc = s.pc := rfl
@[simp] theorem State.setMem_sp (s : State) (m : Memory) : (s.setMem m).sp = s.sp := rfl
@[simp] theorem State.setMem_stack (s : State) (m : Memory) : (s.setMem m).stack = s.stack := rfl
@[simp] theorem State.setMem_dt (s : State) (m : Memory) : (s.setMem m).dt = s.dt := rfl
@[simp] theorem State.setMem_st (s : State) (m : Memory) : (s.setMem m).st = s.st := rfl
@[simp] theorem State.setMem_es (s : State) (m : Memory) : (s.setMem m).es = s.es := rfl
@[simp] theorem State.setMem_cfg (s : State) (m : Memory) : (s.setMem m).cfg = s.cfg := rfl
@[simp] theorem State.setMem_calls (s : State) (m : Memory) : (s.setMem m).calls = s.calls := rfl
@[simp] theorem State.setMem_getV (s : State) (m : Memory) (y : Nib) : (s.setMem m).getV y = s.getV y := rfl

/-! ### setPc -/

@[simp] theorem State.setPc_mem (s : State) (w : Word) : (s.setPc w).mem = s.mem := rfl
@[simp] theorem State.setPc_v (s : State) (w : Word) : (s.setPc w).v = s.v := rfl
@[simp] theorem State.setPc_i (s : State) (w : Word) : (s.setPc w).i = s.i := rfl
@[simp] theorem State.setPc_pc (s : State) (w : Word) : (s.setPc w).pc = w := rfl
@[simp] theorem State.setPc_sp (s : State) (w : Word) : (s.setPc w).sp = s.sp := rfl
@[simp] theorem State.setPc_stack (s : State) (w : Word) : (s.setPc w).stack = s.stack := rfl
@[simp] theorem State.setPc_dt (s : State) (w : Word) : (s.setPc w).dt = s.dt := rfl
@[simp] theorem State.setPc_st (s : State) (w : Word) : (s.setPc w).st = s.st := rfl
@[simp] theorem State.setPc_es (s : State) (w : Word) : (s.setPc w).es = s.es := rfl
@[simp] theorem State.setPc_cfg (s : State) (w : Word) : (s.setPc w).cfg = s.cfg := rfl
@[simp] theorem State.setPc_calls (s : State) (w : Word) : (s.setPc w).calls = s.calls := rfl
@[simp] theorem State.setPc_getV (s : State) (w : Word) (y : Nib) : (s.setPc w).getV y = s.getV y := rfl

/-! ### advance -/

@[simp] theorem State.advance_mem (s : State) : (s.advance).mem = s.mem := rfl
@[simp] theorem State.advance_v (s : State) : (s.advance).v = s.v := rfl
@[simp] theorem State.advance_i (s : State) : (s.advance).i = s.i := rfl
@[simp] theorem State.advance_pc (s : State) : (s.advance).pc = s.pc + 2#16 := rfl
@[simp] theorem State.advance_sp (s : State) : (s.advance).sp = s.sp := rfl
@[simp] theorem State.advance_stack (s : State) : (s.advance).stack = s.stack := rfl
@[simp] theorem State.advance_dt (s : State) : (s.advance).dt = s.dt := rfl
@[simp] theorem State.advance_st (s : State) : (s.advance).st = s.st := rfl
@[simp] theorem State.advance_es (s : State) : (s.advance).es = s.es := rfl
@[simp] theorem State.advance_cfg (s : State) : (s.advance).cfg = s.cfg := rfl
@[simp] theorem State.advance_calls (s : State) : (s.advance).calls = s.calls := rfl
@[simp] theorem State.advance_getV (s : State) (y : Nib) : (s.advance).getV y = s.getV y := rfl

/-! ### skipIf -/

@[simp] theorem State.skipIf_mem (s : State) (c : Bool) : (s.skipIf c).mem = s.mem := rfl
@[simp] theorem State.skipIf_v (s : State) (c : Bool) : (s.skipIf c).v = s.v := rfl
@[simp] theorem State.skipIf_i (s : State) (c : Bool) : (s.skipIf c).i = s.i := rfl
@[simp] theorem State.skipIf_pc (s : State) (c : Bool) : (s.skipIf c).pc = if c then s.pc + 4#16 else s.pc + 2#16 := rfl
@[simp] theorem State.skipIf_sp (s : State) (c : Bool) : (s.skipIf c).sp = s.sp := rfl
@[simp] theorem State.skipIf_stack (s : State) (c : Bool) : (s.skipIf c).stack = s.stack := rfl
@[simp] theorem State.skipIf_dt (s : State) (c : Bool) : (s.skipIf c).dt = s.dt := rfl
@[simp] theorem State.skipIf_st (s : State) (c : Bool) : (s.skipIf c).st = s.st := rfl
@[simp] theorem State.skipIf_es (s : State) (c : Bool) : (s.skipIf c).es = s.es := rfl
@[simp] theorem State.skipIf_cfg (s : State) (c : Bool) : (s.skipIf c).cfg = s.cfg := rfl
@[simp] theorem State.skipIf_calls (s : State) (c : Bool) : (s.skipIf c).calls = s.calls := rfl
@[simp] theorem State.skipIf_getV (s : State) (c : Bool) (y : Nib) : (s.skipIf c).getV y = s.getV y := rfl

/-! ### record -/

@[simp] theorem State.record_mem (s : State) (c : PortCall) : (s.record c).mem = s.mem := rfl
@[simp] theorem State.record_v (s : State) (c : PortCall) : (s.record c).v = s.v := rfl
@[simp] theorem State.record_i (s : State) (c : PortCall) : (s.record c).i = s.i := rfl
@[simp] theorem State.record_pc (s : State) (c : PortCall) : (s.record c).pc = s.pc := rfl
@[simp] theorem State.record_sp (s : State) (c : PortCall) : (s.record c).sp = s.sp := rfl
@[simp] theorem State.record_stack (s : State) (c : PortCall) : (s.record c).stack = s.stack := rfl
@[simp] theorem State.record_dt (s : State) (c : PortCall) : (s.record c).dt = s.dt := rfl
@[simp] theorem State.record_st (s : State) (c : PortCall) : (s.record c).st = s.st := rfl
@[simp] theorem State.record_es (s : State) (c : PortCall) : (s.record c).es = s.es := rfl
@[simp] theorem State.record_cfg (s : State) (c : PortCall) : (s.record c).cfg = s.cfg := rfl
@[simp] theorem State.record_calls (s : State) (c : PortCall) : (s.record c).calls = s.calls ++ [c] := rfl
@[simp] theorem State.record_getV (s : State) (c : PortCall) (y : Nib) : (s.record c).getV y = s.getV y := rfl

/-! ### Reading a register after a register write -/

theorem State.getV_setV (s : State) (x y : Nib) (b : Byte) :
    (s.setV x b).getV y = if y = x then b else s.getV y := by
  unfold State.setV State.getV
  simp only [Vector.getElem_set]
  by_cases h : y = x
  · simp [h]
  · have hn : ¬ x.toNat = y.toNat := fun e => h (BitVec.eq_of_toNat_eq e.symm)
    simp [h, hn]

@[simp] theorem State.getV_setV_same (s : State) (x : Nib) (b : Byte) : (s.setV x b).getV x = b := by
  simp [State.getV_setV]

@[simp] theorem State.getV_setV_other (s : State) (x y : Nib) (b : Byte) (h : y ≠ x) :
    (s.setV x b).getV y = s.getV y := by
  simp [State.getV_setV, h]

theorem State.getV_setVF (s : State) (y : Nib) (b : Byte) :
    (s.setVF b).getV y = if y = 0xF#4 then b else s.getV y := State.getV_setV s 0xF#4 y b

/-- Two register files are equal when every register reads the same. -/
theorem State.v_ext (s t : State) (h : ∀ x, s.getV x = t.getV x) : s.v = t.v := by
  apply Vector.ext
  intro j hj
  have := h (BitVec.ofNat 4 j)
  simpa [State.getV, Nat.mod_eq_of_lt hj] using this

/-! ### The optional update of I after a block transfer -/

@[simp] theorem State.blockAdvanceI_mem (s : State) (x : Nib) : (s.blockAdvanceI x).mem = s.mem := by
  unfold State.blockAdvanceI; split <;> rfl
@[simp] theorem State.blockAdvanceI_v (s : State) (x : Nib) : (s.blockAdvanceI x).v = s.v := by
  unfold State.blockAdvanceI; split <;> rfl
theorem State.blockAdvanceI_i (s : State) (x : Nib) : (s.blockAdvanceI x).i =
    if s.cfg.loadstoreIncrementsI then (s.i + BitVec.ofNat 16 (blockLength x)) &&& 0x0FFF#16 else s.i := by
  unfold State.blockAdvanceI; split <;> rfl
@[simp] theorem State.blockAdvanceI_pc (s : State) (x : Nib) : (s.blockAdvanceI x).pc = s.pc := by
  unfold State.blockAdvanceI; split <;> rfl
@[simp] theorem State.blockAdvanceI_sp (s : State) (x : Nib) : (s.blockAdvanceI x).sp = s.sp := by
  unfold State.blockAdvanceI; split <;> rfl
@[simp] theorem State.blockAdvanceI_stack (s : State) (x : Nib) : (s.blockAdvanceI x).stack = s.stack := by
  unfold State.blockAdvanceI; split <;> rfl
@[simp] theorem State.blockAdvanceI_dt (s : State) (x : Nib) : (s.blockAdvanceI x).dt = s.dt := by
  unfold State.blockAdvanceI; split <;> rfl
@[simp] theorem State.blockAdvanceI_st (s : State) (x : Nib) : (s.blockAdvanceI x).st = s.st := by
  unfold State.blockAdvanceI; split <;> rfl
@[simp] theorem State.blockAdvanceI_es (s : State) (x : Nib) : (s.blockAdvanceI x).es = s.es := by
  unfold State.blockAdvanceI; split <;> rfl
@[simp] theorem State.blockAdvanceI_cfg (s : State) (x : Nib) : (s.blockAdvanceI x).cfg = s.cfg := by
  unfold State.blockAdvanceI; split <;> rfl
@[simp] theorem State.blockAdvanceI_calls (s : State) (x : Nib) : (s.blockAdvanceI x).calls = s.calls := by
  unfold State.blockAdvanceI; split <;> rfl

@[simp] theorem State.blockAdvanceI_getV (s : State) (x y : Nib) : (s.blockAdvanceI x).getV y = s.getV y := by
  unfold State.blockAdvanceI; split <;> rfl

end Sys2Proof.Machine
end

