-- ==== Sys2Proof/Laws/Ops.lean ====
section
/-! SUPPORT. One lemma per shared operation that says everything it can do: the stack, taking an error and the returns
from it, the block of registers, the plots of a sprite, the end of an ALU instruction. -/

namespace Sys2Proof.Machine

/-! ### The call stack -/

/-- A push answers a state exactly when an entry `STACK[SP]` exists. -/
theorem State.push_eq_some (s t : State) (ra : Word) :
    s.push ra = some t ↔
      ∃ h : s.sp.toNat < 16, t = { s with stack := s.stack.set s.sp.toNat ra h, sp := s.sp + 1#8 } := by
  unfold State.push
  split
  · rename_i h; simp [h, eq_comm]
  · rename_i h; simp [h]

theorem State.push_eq_none (s : State) (ra : Word) : s.push ra = none ↔ 16 ≤ s.sp.toNat := by
  unfold State.push
  split <;> simp <;> omega

theorem toNat_sub_one (b : Byte) (h : 0 < b.toNat) : (b - 1#8).toNat = b.toNat - 1 := by
  have := b.isLt
  rw [BitVec.toNat_sub]
  simp only [BitVec.toNat_ofNat]
  omega

/-- With 1 to 16 live entries a pop answers the top one, `STACK[SP - 1]`, and leaves the entry itself alone. -/
theorem State.pop_live (s : State) (h0 : 0 < s.sp.toNat) (h : s.sp.toNat ≤ 16) :
    s.pop = some (s.stack[s.sp.toNat - 1]'(by omega), { s with sp := s.sp - 1#8 }) := by
  have hs := toNat_sub_one s.sp h0
  have hlt : (s.sp - 1#8).toNat < 16 := by omega
  rw [State.pop, dif_pos hlt]
  simp only [hs]

/-- Otherwise there is no entry to pop. -/
theorem State.pop_eq_none (s : State) (h : s.sp.toNat = 0 ∨ 16 < s.sp.toNat) : s.pop = none := by
  have hlt : ¬ (s.sp - 1#8).toNat < 16 := by
    rcases h with h | h
    · have : s.sp = 0#8 := BitVec.eq_of_toNat_eq h
      simp [this]
    · rw [toNat_sub_one s.sp (by omega)]
      omega
  rw [State.pop, dif_neg hlt]

/-! ### Errors and the returns from them -/

/-- Taking an error answers one next state: only ES changes. -/
theorem raise_eq_next (e : ErrorKind) (value : Nat) (s t : State) :
    raise e value s = .next t ↔ t = { s with es := .halted e { pc := s.pc, value := value } } := by
  unfold raise
  rw [Host.Outcome.next.injEq]
  exact eq_comm

theorem awaitKey_eq_next (x : Nib) (s t : State) :
    awaitKey x s = .next t ↔ t = { s with es := .awaitingKey x } := by
  unfold awaitKey
  rw [Host.Outcome.next.injEq]
  exact eq_comm

theorem skipAndContinue_halted (s : State) (e : ErrorKind) (info : ErrorInfo) (h : s.es = .halted e info) :
    skipAndContinue s = (true, { s.advance with es := .idle }) := by
  simp [skipAndContinue, h]

theorem skipAndContinue_other (s : State) (h : ∀ e info, s.es ≠ .halted e info) : skipAndContinue s = (false, s) := by
  unfold skipAndContinue
  split <;> simp_all

theorem resumeKey_waiting (k x : Nib) (s : State) (h : s.es = .awaitingKey x) :
    resumeKey k s = (true, { (s.setV x (k.setWidth 8)).advance with es := .idle }) := by
  simp [resumeKey, h]

theorem resumeKey_other (k : Nib) (s : State) (h : ∀ x, s.es ≠ .awaitingKey x) : resumeKey k s = (false, s) := by
  unfold resumeKey
  split <;> simp_all

/-! ### The fetch -/

/-- Where ODD_PC_FETCH raises nothing the fetch is the big-endian word at PC, or the range error (R101). -/
theorem fetch_eq (s : State) (h : ¬ (s.cfg.oddPcFetch = .fault ∧ s.pc.toNat % 2 = 1)) :
    fetch s = if s.pc.toNat + 1 ≤ 0xFFF
      then .ok (wordOfBytes (s.mem.read s.pc.toNat) (s.mem.read (s.pc.toNat + 1)))
      else .error (max s.pc.toNat 0x1000) := by
  rw [fetch, if_neg h, readWord_eq]

theorem fetch_odd (s : State) (h : s.cfg.oddPcFetch = .fault ∧ s.pc.toNat % 2 = 1) :
    fetch s = .error s.pc.toNat := by
  rw [fetch, if_pos h]

/-! ### Register blocks -/

/-- A block load fills `V[0]` to `V[k-1]` and leaves the rest (R188). -/
theorem getElem_loadRegs (v : Vector Byte 16) (m : Memory) (addr k j : Nat) (hj : j < 16) :
    (loadRegs v m addr k)[j] = if j < k then m.read (addr + j) else v[j] := by
  induction k with
  | zero => simp [loadRegs]
  | succ k ih =>
    simp only [loadRegs, Vector.getElem_setIfInBounds, ih]
    by_cases h : k = j
    · subst h; simp
    · by_cases h2 : j < k
      · have : j < k + 1 := by omega
        simp [h, h2, this]
      · have : ¬ j < k + 1 := by omega
        simp [h, h2, this]

@[simp] theorem length_blockRegs (s : State) (x : Nib) : (blockRegs s x).length = x.toNat + 1 := by
  have := x.isLt
  simp [blockRegs, blockLength]
  omega

/-- Byte `j` of a stored block is `V[j]` (R187). -/
theorem getElem_blockRegs (s : State) (x : Nib) (j : Nat) (hj : j < (blockRegs s x).length) (h16 : j < 16) :
    (blockRegs s x)[j] = s.v[j] := by
  simp [blockRegs]

@[simp] theorem length_bcdDigits (b : Byte) : (bcdDigits b).length = 3 := rfl

/-! ### The end of an ALU instruction -/

/-- An ALU instruction always answers a next state. -/
theorem aluNext_eq (x : Nib) (r : Byte) (flag : Option Byte) (s : State) :
    aluNext x r flag s = .next (match flag with
      | some f => ((s.setV x r).setVF f).advance
      | none => (s.setV x r).advance) := by
  cases flag <;> rfl

/-! ### The plots of a sprite -/

/-- The port calls of a list of pixels whose first call is the `k`-th of the run, with their answers. -/
def answeredPlots (k : Nat) : List Pixel → List PortCall
  | [] => []
  | p :: ps => .plot p.x p.y p.on (Config.plotCollides k) :: answeredPlots (k + 1) ps

/-- Whether one of the calls of a list of pixels answers collided. -/
def anyCollides (k : Nat) : List Pixel → Bool
  | [] => false
  | _ :: ps => Config.plotCollides k || anyCollides (k + 1) ps

/-- The plots make one call per pixel in order, change nothing but the record of calls, and OR the answers (R170). -/
theorem plotAll_eq (s : State) (ps : List Pixel) :
    plotAll s ps =
      (anyCollides s.calls.length ps, { s with calls := s.calls ++ answeredPlots s.calls.length ps }) := by
  induction ps generalizing s with
  | nil => simp [plotAll, anyCollides, answeredPlots]
  | cons p ps ih =>
    simp only [plotAll, State.displayPlot, State.nextCall, ih]
    simp [State.record, anyCollides, answeredPlots]

end Sys2Proof.Machine
end

