-- ==== Sys2Proof/Laws/Exec.lean ====
section
/-! SUPPORT. What each instruction answers, once: an equation for every instruction that cannot raise, and for each that
can, the two ways it can end. Later proofs cite these instead of unfolding a meaning. -/

namespace Sys2Proof.Machine

/-- The state a step error leaves: only ES differs (R202 to R204). -/
def State.halt (s : State) (e : ErrorKind) (value : Nat) : State :=
  { s with es := .halted e { pc := s.pc, value := value } }

/-! ### Instructions that always commit -/

@[simp] theorem exec_cls (s : State) : exec .cls s = .next (s.record .clear).advance := rfl

@[simp] theorem exec_jp (nnn : Addr) (s : State) : exec (.jp nnn) s = .next (s.setPc (addrAsWord nnn)) := rfl

@[simp] theorem exec_seImm (x : Nib) (kk : Byte) (s : State) :
    exec (.seImm x kk) s = .next (s.skipIf (s.getV x == kk)) := rfl

@[simp] theorem exec_sneImm (x : Nib) (kk : Byte) (s : State) :
    exec (.sneImm x kk) s = .next (s.skipIf (s.getV x != kk)) := rfl

@[simp] theorem exec_seReg (x y : Nib) (s : State) :
    exec (.seReg x y) s = .next (s.skipIf (s.getV x == s.getV y)) := rfl

@[simp] theorem exec_sneReg (x y : Nib) (s : State) :
    exec (.sneReg x y) s = .next (s.skipIf (s.getV x != s.getV y)) := rfl

@[simp] theorem exec_ldImm (x : Nib) (kk : Byte) (s : State) :
    exec (.ldImm x kk) s = .next (s.setV x kk).advance := rfl

@[simp] theorem exec_addImm (x : Nib) (kk : Byte) (s : State) :
    exec (.addImm x kk) s = .next (s.setV x (s.getV x + kk)).advance := rfl

@[simp] theorem exec_ldReg (x y : Nib) (s : State) :
    exec (.ldReg x y) s = .next (s.setV x (s.getV y)).advance := rfl

/-- The state after a logic operation: VF is reset exactly under `LOGIC_RESETS_VF` (R143). -/
def State.logicResult (s : State) (x : Nib) (r : Byte) : State :=
  if s.cfg.logicResetsVf then ((s.setV x r).setVF 0#8).advance else (s.setV x r).advance

theorem aluNext_logic (x : Nib) (r : Byte) (s : State) :
    aluNext x r (logicFlag s.cfg) s = .next (s.logicResult x r) := by
  unfold logicFlag State.logicResult
  split <;> rfl

@[simp] theorem exec_orReg (x y : Nib) (s : State) :
    exec (.orReg x y) s = .next (s.logicResult x (s.getV x ||| s.getV y)) := aluNext_logic x _ s

@[simp] theorem exec_andReg (x y : Nib) (s : State) :
    exec (.andReg x y) s = .next (s.logicResult x (s.getV x &&& s.getV y)) := aluNext_logic x _ s

@[simp] theorem exec_xorReg (x y : Nib) (s : State) :
    exec (.xorReg x y) s = .next (s.logicResult x (s.getV x ^^^ s.getV y)) := aluNext_logic x _ s

@[simp] theorem exec_addReg (x y : Nib) (s : State) :
    exec (.addReg x y) s =
      .next ((s.setV x (s.getV x + s.getV y)).setVF (carryFlag (s.getV x) (s.getV y))).advance := rfl

@[simp] theorem exec_sub (x y : Nib) (s : State) :
    exec (.sub x y) s =
      .next ((s.setV x (s.getV x - s.getV y)).setVF (notBorrowFlag (s.getV x) (s.getV y))).advance := rfl

@[simp] theorem exec_shr (x y : Nib) (s : State) :
    exec (.shr x y) s =
      .next ((s.setV x (shiftOperand s x y >>> 1)).setVF (shiftedOutRight (shiftOperand s x y))).advance := rfl

@[simp] theorem exec_subn (x y : Nib) (s : State) :
    exec (.subn x y) s =
      .next ((s.setV x (s.getV y - s.getV x)).setVF (notBorrowFlag (s.getV y) (s.getV x))).advance := rfl

@[simp] theorem exec_shl (x y : Nib) (s : State) :
    exec (.shl x y) s =
      .next ((s.setV x (shiftOperand s x y <<< 1)).setVF (shiftedOutLeft (shiftOperand s x y))).advance := rfl

@[simp] theorem exec_ldI (nnn : Addr) (s : State) :
    exec (.ldI nnn) s = .next (s.setI (addrAsWord nnn)).advance := rfl

@[simp] theorem exec_jpV0 (nnn : Addr) (s : State) :
    exec (.jpV0 nnn) s = .next (s.setPc (addrAsWord nnn + byteAsWord (s.getV 0x0#4))) := rfl

@[simp] theorem exec_rnd (x : Nib) (kk : Byte) (s : State) :
    exec (.rnd x kk) s = .next
      ((s.record (.randomByte (Config.randomByte s.calls.length))).setV x
        (Config.randomByte s.calls.length &&& kk)).advance := rfl

@[simp] theorem exec_skp (x : Nib) (s : State) :
    exec (.skp x) s = .next
      ((s.record (.isKeyDown (lowNibble (s.getV x)) (Config.keyDown s.calls.length))).skipIf
        (Config.keyDown s.calls.length)) := rfl

@[simp] theorem exec_sknp (x : Nib) (s : State) :
    exec (.sknp x) s = .next
      ((s.record (.isKeyDown (lowNibble (s.getV x)) (Config.keyDown s.calls.length))).skipIf
        (!Config.keyDown s.calls.length)) := rfl

@[simp] theorem exec_ldVxDt (x : Nib) (s : State) : exec (.ldVxDt x) s = .next (s.setV x s.dt).advance := rfl

@[simp] theorem exec_ldVxK (x : Nib) (s : State) :
    exec (.ldVxK x) s = .next { s with es := .awaitingKey x } := rfl

@[simp] theorem exec_ldDtVx (x : Nib) (s : State) :
    exec (.ldDtVx x) s = .next (s.setDT (s.getV x)).advance := rfl

@[simp] theorem exec_ldStVx (x : Nib) (s : State) :
    exec (.ldStVx x) s = .next (s.setST (s.getV x)).advance := rfl

@[simp] theorem exec_addI (x : Nib) (s : State) :
    exec (.addI x) s = .next (s.setI (s.i + byteAsWord (s.getV x))).advance := rfl

@[simp] theorem exec_ldF (x : Nib) (s : State) :
    exec (.ldF x) s = .next (s.setI (glyphAddress s.cfg (lowNibble (s.getV x)))).advance := rfl

/-! ### Instructions that can raise -/

/-- RET underflows, pops, or stops where SP is past 16. -/
theorem exec_ret (s : State) :
    exec .ret s =
      if s.sp.toNat = 0 then .next (s.halt .stackUnderflowError 0)
      else if h : s.sp.toNat ≤ 16 then
        .next { s with sp := s.sp - 1#8, pc := s.stack[s.sp.toNat - 1] }
      else .fault .stackPointerOutOfRange := by
  unfold exec execRet
  by_cases h0 : s.sp.toNat = 0
  · have hs : s.sp = 0#8 := BitVec.eq_of_toNat_eq h0
    simp only [hs]
    rfl
  · have hs : s.sp ≠ 0#8 := fun h => h0 (by rw [h]; rfl)
    simp only [hs, h0, if_false]
    by_cases h : s.sp.toNat ≤ 16
    · simp only [State.pop_live s (by omega) h, h, dif_pos]
      rfl
    · simp only [State.pop_eq_none s (by omega), h, dif_neg, not_false_iff]

/-- CALL overflows, pushes, or stops where SP is past 16. -/
theorem exec_call (nnn : Addr) (s : State) :
    exec (.call nnn) s =
      if s.sp.toNat = 16 then .next (s.halt .stackOverflowError 0)
      else if h : s.sp.toNat < 16 then
        .next { s with stack := s.stack.set s.sp.toNat (s.pc + 2#16) h, sp := s.sp + 1#8, pc := addrAsWord nnn }
      else .fault .stackPointerOutOfRange := by
  unfold exec execCall
  by_cases h0 : s.sp.toNat = 16
  · have hs : s.sp = 16#8 := BitVec.eq_of_toNat_eq h0
    simp only [hs]
    rfl
  · have hs : s.sp ≠ 16#8 := fun h => h0 (by rw [h]; rfl)
    simp only [hs, h0, if_false]
    by_cases h : s.sp.toNat < 16
    · simp only [State.push, h, dif_pos]
      rfl
    · simp only [State.push, h, dif_neg, not_false_iff]

/-- DRW raises on the range, else makes its plots and writes the collision flag. -/
theorem exec_drw (x y n : Nib) (s : State) :
    exec (.drw x y n) s =
      match spriteRangeError s.i n with
      | some a => .next (s.halt .addressError a)
      | none => .next ((({ s with calls := s.calls ++ answeredPlots s.calls.length (drawnPixels s x y n) } : State).setVF
          (collisionFlag (anyCollides s.calls.length (drawnPixels s x y n)))).advance) := by
  change execDrw x y n s = _
  unfold execDrw
  cases spriteRangeError s.i n with
  | some a => rfl
  | none => simp only [plotAll_eq]

/-- The sprite's range check passes exactly when it reads nothing past 0xFFF. -/
theorem spriteRangeError_eq_none (i : Word) (n : Nib) :
    spriteRangeError i n = none ↔ n.toNat = 0 ∨ i.toNat + n.toNat - 1 ≤ 0xFFF := by
  unfold spriteRangeError
  by_cases h : n = 0#4
  · simp [h]
  · have hn : n.toNat ≠ 0 := fun h' => h (BitVec.eq_of_toNat_eq h')
    simp only [h, if_false, hn, false_or, rangeError_eq_none]

theorem spriteRangeError_eq_some (i : Word) (n : Nib) (a : Nat) :
    spriteRangeError i n = some a ↔
      0 < n.toNat ∧ 0xFFF < i.toNat + n.toNat - 1 ∧ a = max i.toNat 0x1000 := by
  unfold spriteRangeError
  by_cases h : n = 0#4
  · simp [h]
  · have hn : 0 < n.toNat := Nat.pos_of_ne_zero fun h' => h (BitVec.eq_of_toNat_eq h')
    simp only [h, if_false, hn, true_and, rangeError_eq_some]

/-- `Fx33` raises on the range, else stores the three digits. -/
theorem exec_ldB (x : Nib) (s : State) :
    exec (.ldB x) s =
      match rangeError s.i.toNat 3 with
      | some a => .next (s.halt .addressError a)
      | none => .next (s.setMem (s.mem.storeBytes s.i.toNat (bcdDigits (s.getV x)))).advance := rfl

/-- `Fx55` raises on the range, else stores the block. -/
theorem exec_ldMemVx (x : Nib) (s : State) :
    exec (.ldMemVx x) s =
      match rangeError s.i.toNat (x.toNat + 1) with
      | some a => .next (s.halt .addressError a)
      | none =>
        .next ((s.setMem (s.mem.storeBytes s.i.toNat (blockRegs s x))).blockAdvanceI x).advance := rfl

/-- `Fx65` raises on the range, else loads the block. -/
theorem exec_ldVxMem (x : Nib) (s : State) :
    exec (.ldVxMem x) s =
      match rangeError s.i.toNat (x.toNat + 1) with
      | some a => .next (s.halt .addressError a)
      | none =>
        .next (({ s with v := loadRegs s.v s.mem s.i.toNat (x.toNat + 1) } : State).blockAdvanceI x).advance := rfl

/-! ### Steps and host operations -/

theorem step_idle (s : State) (h : s.es = .idle) : step s = stepIdle s := by
  simp [step, h]

theorem step_halted (s : State) (e : ErrorKind) (info : ErrorInfo) (h : s.es = .halted e info) :
    step s = .next s := by
  simp [step, h, stepHeld]

theorem step_awaiting (s : State) (x : Nib) (h : s.es = .awaitingKey x) : step s = .next s := by
  simp [step, h, stepHeld]

/-- A step from Idle ends in a fetch error, an illegal word, or the instruction (R208). -/
theorem stepIdle_cases (s : State) :
    (∃ a, fetch s = .error a ∧ stepIdle s = .next (s.halt .addressError a)) ∨
    (∃ w e, fetch s = .ok w ∧ decodeWord w = .error e ∧ stepIdle s = .next (s.halt .unknownOpcodeError w.toNat)) ∨
    (∃ w i, fetch s = .ok w ∧ decodeWord w = .ok i ∧ stepIdle s = exec i s) := by
  unfold stepIdle
  cases hf : fetch s with
  | error a => exact .inl ⟨a, rfl, rfl⟩
  | ok w =>
    cases hd : decodeWord w with
    | error e => exact .inr (.inl ⟨w, e, rfl, hd, by simp only [hd]; rfl⟩)
    | ok i => exact .inr (.inr ⟨w, i, rfl, hd, by simp only [hd]⟩)

theorem perform_step_next (s t : State) (h : step s = .next t) : perform .step s = .next (stepReply t, t) := by
  simp [perform, performStep, h]

@[simp] theorem runOps_nil (s : State) : runOps [] s = .next s := rfl

theorem runOps_cons (op : HostOp) (ops : List HostOp) (s t : State) (r : HostReply)
    (h : perform op s = .next (r, t)) : runOps (op :: ops) s = runOps ops t := by
  simp [runOps, h]

theorem perform_loadProgram_some (s : State) (bytes : List Byte) (origin : Nat) (m : Memory)
    (h : loadProgram s.mem bytes origin = some m) :
    perform (.loadProgram bytes origin) s = .next (.ok, s.setMem m) := by
  simp [perform, performLoad, h]

theorem perform_loadProgram_none (s : State) (bytes : List Byte) (origin : Nat)
    (h : loadProgram s.mem bytes origin = none) :
    perform (.loadProgram bytes origin) s = .next (.programTooLargeError, s) := by
  simp [perform, performLoad, h]

end Sys2Proof.Machine
end

