-- ==== Sys2Proof/Laws/PerInstr.lean ====
section
/-! SUPPORT. Per-instruction statements about the syntax: every instruction's word carries the fixed bits of its row of
spec/opcode_table.json, and its operands fit their fields. -/

namespace Sys2Proof.Laws.TableRow

/-- The word of `i` masked with its row's mask is its row's match, and its operands fit their fields (R81, R83). -/
def Statement (i : Instr) : Prop :=
  encode i &&& i.tableRow.1 = i.tableRow.2 ∧ i.wellFormed = true

/-- Two fields of four and eight bits fit. -/
theorem fit_xkk (x : Nib) (kk : Byte) : fieldsFit [(4, x.toNat), (8, kk.toNat)] = true := by
  have hx := x.isLt
  have hk := kk.isLt
  simp [fieldsFit, hx, hk]

theorem fit_xy (x y : Nib) : fieldsFit [(4, x.toNat), (4, y.toNat)] = true := by
  have hx := x.isLt
  have hy := y.isLt
  simp [fieldsFit, hx, hy]

theorem fit_xyn (x y n : Nib) : fieldsFit [(4, x.toNat), (4, y.toNat), (4, n.toNat)] = true := by
  have hx := x.isLt
  have hy := y.isLt
  have hn := n.isLt
  simp [fieldsFit, hx, hy, hn]

theorem fit_x (x : Nib) : fieldsFit [(4, x.toNat)] = true := by
  have hx := x.isLt
  simp [fieldsFit, hx]

theorem fit_nnn (nnn : Addr) : fieldsFit [(12, nnn.toNat)] = true := by
  have h := nnn.isLt
  simp [fieldsFit, h]

theorem cls : Statement .cls :=
  ⟨rfl, rfl⟩

theorem ret : Statement .ret :=
  ⟨rfl, rfl⟩

theorem jp (nnn : Addr) : Statement (.jp nnn) :=
  ⟨(formatNnn_and _ _).trans rfl, fit_nnn nnn⟩

theorem call (nnn : Addr) : Statement (.call nnn) :=
  ⟨(formatNnn_and _ _).trans rfl, fit_nnn nnn⟩

theorem seImm (x : Nib) (kk : Byte) : Statement (.seImm x kk) :=
  ⟨(formatXkk_and _ _ _).trans rfl, fit_xkk x kk⟩

theorem sneImm (x : Nib) (kk : Byte) : Statement (.sneImm x kk) :=
  ⟨(formatXkk_and _ _ _).trans rfl, fit_xkk x kk⟩

theorem seReg (x : Nib) (y : Nib) : Statement (.seReg x y) :=
  ⟨(formatXyf_and _ _ _ _).trans rfl, fit_xy x y⟩

theorem ldImm (x : Nib) (kk : Byte) : Statement (.ldImm x kk) :=
  ⟨(formatXkk_and _ _ _).trans rfl, fit_xkk x kk⟩

theorem addImm (x : Nib) (kk : Byte) : Statement (.addImm x kk) :=
  ⟨(formatXkk_and _ _ _).trans rfl, fit_xkk x kk⟩

theorem ldReg (x : Nib) (y : Nib) : Statement (.ldReg x y) :=
  ⟨(formatXyf_and _ _ _ _).trans rfl, fit_xy x y⟩

theorem orReg (x : Nib) (y : Nib) : Statement (.orReg x y) :=
  ⟨(formatXyf_and _ _ _ _).trans rfl, fit_xy x y⟩

theorem andReg (x : Nib) (y : Nib) : Statement (.andReg x y) :=
  ⟨(formatXyf_and _ _ _ _).trans rfl, fit_xy x y⟩

theorem xorReg (x : Nib) (y : Nib) : Statement (.xorReg x y) :=
  ⟨(formatXyf_and _ _ _ _).trans rfl, fit_xy x y⟩

theorem addReg (x : Nib) (y : Nib) : Statement (.addReg x y) :=
  ⟨(formatXyf_and _ _ _ _).trans rfl, fit_xy x y⟩

theorem sub (x : Nib) (y : Nib) : Statement (.sub x y) :=
  ⟨(formatXyf_and _ _ _ _).trans rfl, fit_xy x y⟩

theorem shr (x : Nib) (y : Nib) : Statement (.shr x y) :=
  ⟨(formatXyf_and _ _ _ _).trans rfl, fit_xy x y⟩

theorem subn (x : Nib) (y : Nib) : Statement (.subn x y) :=
  ⟨(formatXyf_and _ _ _ _).trans rfl, fit_xy x y⟩

theorem shl (x : Nib) (y : Nib) : Statement (.shl x y) :=
  ⟨(formatXyf_and _ _ _ _).trans rfl, fit_xy x y⟩

theorem sneReg (x : Nib) (y : Nib) : Statement (.sneReg x y) :=
  ⟨(formatXyf_and _ _ _ _).trans rfl, fit_xy x y⟩

theorem ldI (nnn : Addr) : Statement (.ldI nnn) :=
  ⟨(formatNnn_and _ _).trans rfl, fit_nnn nnn⟩

theorem jpV0 (nnn : Addr) : Statement (.jpV0 nnn) :=
  ⟨(formatNnn_and _ _).trans rfl, fit_nnn nnn⟩

theorem rnd (x : Nib) (kk : Byte) : Statement (.rnd x kk) :=
  ⟨(formatXkk_and _ _ _).trans rfl, fit_xkk x kk⟩

theorem drw (x : Nib) (y : Nib) (n : Nib) : Statement (.drw x y n) :=
  ⟨(formatXyn_and _ _ _ _).trans rfl, fit_xyn x y n⟩

theorem skp (x : Nib) : Statement (.skp x) :=
  ⟨(formatXf_and _ _ _).trans rfl, fit_x x⟩

theorem sknp (x : Nib) : Statement (.sknp x) :=
  ⟨(formatXf_and _ _ _).trans rfl, fit_x x⟩

theorem ldVxDt (x : Nib) : Statement (.ldVxDt x) :=
  ⟨(formatXf_and _ _ _).trans rfl, fit_x x⟩

theorem ldVxK (x : Nib) : Statement (.ldVxK x) :=
  ⟨(formatXf_and _ _ _).trans rfl, fit_x x⟩

theorem ldDtVx (x : Nib) : Statement (.ldDtVx x) :=
  ⟨(formatXf_and _ _ _).trans rfl, fit_x x⟩

theorem ldStVx (x : Nib) : Statement (.ldStVx x) :=
  ⟨(formatXf_and _ _ _).trans rfl, fit_x x⟩

theorem addI (x : Nib) : Statement (.addI x) :=
  ⟨(formatXf_and _ _ _).trans rfl, fit_x x⟩

theorem ldF (x : Nib) : Statement (.ldF x) :=
  ⟨(formatXf_and _ _ _).trans rfl, fit_x x⟩

theorem ldB (x : Nib) : Statement (.ldB x) :=
  ⟨(formatXf_and _ _ _).trans rfl, fit_x x⟩

theorem ldMemVx (x : Nib) : Statement (.ldMemVx x) :=
  ⟨(formatXf_and _ _ _).trans rfl, fit_x x⟩

theorem ldVxMem (x : Nib) : Statement (.ldVxMem x) :=
  ⟨(formatXf_and _ _ _).trans rfl, fit_x x⟩

end Sys2Proof.Laws.TableRow
end

