-- ==== Sys2Proof/Laws/Safety.lean ====
section
/-! SUPPORT. The invariant taken apart, and what it needs: halts keep it, writes of I stay in 12 bits. -/

namespace Sys2Proof.Machine

/-- The parts of the invariant. -/
theorem State.inv_iff (s : State) :
    s.Inv ↔ s.mem.wf = true ∧ s.i.toNat ≤ 0xFFF ∧ s.sp.toNat ≤ 16 ∧ s.haltRecorded = true := by
  simp [State.Inv, State.inv, and_assoc]

theorem State.haltRecorded_idle (s : State) (h : s.es = .idle) : s.haltRecorded = true := by
  simp [State.haltRecorded, h]

theorem State.haltRecorded_awaiting (s : State) (x : Nib) (h : s.es = .awaitingKey x) : s.haltRecorded = true := by
  simp [State.haltRecorded, h]

/-- A step error keeps the invariant. -/
theorem State.halt_inv (s : State) (e : ErrorKind) (value : Nat) (h : s.Inv) (he : e ≠ .programTooLargeError) :
    (s.halt e value).Inv := by
  rw [State.inv_iff] at *
  exact ⟨h.1, h.2.1, h.2.2.1, by simp [State.halt, State.haltRecorded, he]⟩

/-- The mask of a write of I is the remainder modulo 4096 (R24). -/
theorem toNat_mask12 (w : Word) : (w &&& 0xFFF#16).toNat = w.toNat % 4096 := by
  simp only [BitVec.toNat_and]
  exact Nat.and_two_pow_sub_one_eq_mod w.toNat 12

/-- A write of I leaves `I <= 0xFFF`. -/
theorem State.setI_i_le (s : State) (w : Word) : (s.setI w).i.toNat ≤ 0xFFF := by
  rw [State.setI_i, toNat_mask12]
  omega

/-- I after a block transfer stays in 12 bits. -/
theorem State.blockAdvanceI_i_le (s : State) (x : Nib) (h : s.i.toNat ≤ 0xFFF) : (s.blockAdvanceI x).i.toNat ≤ 0xFFF := by
  unfold State.blockAdvanceI
  cases s.cfg.loadstoreIncrementsI
  · exact h
  · exact State.setI_i_le s _

end Sys2Proof.Machine
end

