-- ==== Sys2Proof/Tests/Slice0.lean ====
section
/-! SUPPORT. Tests: expected results come from the spec's encodings and vectors, named in each comment; and a witness for
the hypotheses of every statement that has some. -/

namespace Sys2Proof.Tests

open Sys2Proof Sys2Proof.Machine Sys2Proof.Claims

/-- The next state of an outcome. -/
def nextOf : Result → Option State
  | .next t => some t
  | .fault _ => none
  | .refused _ => none

/-- What `f` reads after one step that runs the word `w`, placed at PC. -/
def view {α : Type} (f : State → α) (w : Word) (s : State) : Option α := (nextOf (step (s.placeWord w))).map f

/-- The reset state with two registers written. -/
def withV (x : Nib) (a : Byte) (y : Nib) (b : Byte) : State := (State.reset.setV x a).setV y b

/-- The reset state at another PC. -/
def atPc (w : Word) : State := State.reset.setPc w

/-- The reset state under another configuration. -/
def under (c : Config) : State := State.resetWith c

/-- A halt as a step error records it. -/
def haltAt (e : ErrorKind) (pc : Word) (value : Nat) : ExecState := .halted e { pc := pc, value := value }

/-! ### Well-formedness: every check refuses an ill-formed term -/

theorem test_fieldsFit_refuses :
    fieldsFit [(4, 16)] = false ∧ fieldsFit [(4, 3), (8, 256)] = false ∧ fieldsFit [(12, 4096)] = false ∧
      fieldsFit [(4, 15), (8, 255)] = true ∧ fieldsFit [(12, 4095)] = true := by decide

/-- R86 and T15 to T20, a word of each pattern. -/
theorem test_illegalWord_refuses :
    [0x0000#16, 0x0123#16, 0x00FE#16, 0x00FF#16, 0x5121#16, 0x8008#16, 0x800D#16, 0x800F#16].all illegalWord = true ∧
      [0x9011#16, 0xE09F#16, 0xE0A2#16, 0xF000#16, 0xF0FF#16, 0xF030#16, 0xF075#16].all illegalWord = true := by
  decide

theorem test_config_refuses :
    ({ Config.reference with programOrigin := 0x300#16 } : Config).wellFormed = false ∧
      ({ Config.reference with fontBase := 0xFB1#16 } : Config).wellFormed = false ∧
      ({ Config.reference with displayW := 0 } : Config).wellFormed = false ∧
      ({ Config.reference with displayH := 0 } : Config).wellFormed = false ∧
      ({ Config.reference with programOrigin := 0x600#16, fontBase := 0xFB0#16 } : Config).wellFormed = true := by
  decide

/-! ### Decoding: a word of each constructor, written out from the encodings of R84 -/

theorem test_decode_control : decodeWord 0x00E0#16 = .ok .cls ∧ decodeWord 0x00EE#16 = .ok .ret ∧
    decodeWord 0x120C#16 = .ok (.jp 0x20C#12) ∧ decodeWord 0x2300#16 = .ok (.call 0x300#12) := ⟨rfl, rfl, rfl, rfl⟩

theorem test_decode_skip : decodeWord 0x3312#16 = .ok (.seImm 0x3#4 0x12#8) ∧
    decodeWord 0x4205#16 = .ok (.sneImm 0x2#4 0x05#8) ∧ decodeWord 0x5AB0#16 = .ok (.seReg 0xA#4 0xB#4) ∧
    decodeWord 0x9120#16 = .ok (.sneReg 0x1#4 0x2#4) := ⟨rfl, rfl, rfl, rfl⟩

theorem test_decode_alu_move : decodeWord 0x6AFF#16 = .ok (.ldImm 0xA#4 0xFF#8) ∧
    decodeWord 0x71FE#16 = .ok (.addImm 0x1#4 0xFE#8) ∧ decodeWord 0x8340#16 = .ok (.ldReg 0x3#4 0x4#4) ∧
    decodeWord 0x8121#16 = .ok (.orReg 0x1#4 0x2#4) ∧ decodeWord 0x8342#16 = .ok (.andReg 0x3#4 0x4#4) ∧
    decodeWord 0x8563#16 = .ok (.xorReg 0x5#4 0x6#4) := ⟨rfl, rfl, rfl, rfl, rfl, rfl⟩

theorem test_decode_alu_flag : decodeWord 0x8AB4#16 = .ok (.addReg 0xA#4 0xB#4) ∧
    decodeWord 0x8AB5#16 = .ok (.sub 0xA#4 0xB#4) ∧ decodeWord 0x8016#16 = .ok (.shr 0x0#4 0x1#4) ∧
    decodeWord 0x8017#16 = .ok (.subn 0x0#4 0x1#4) ∧ decodeWord 0x8CAE#16 = .ok (.shl 0xC#4 0xA#4) :=
  ⟨rfl, rfl, rfl, rfl, rfl⟩

theorem test_decode_index : decodeWord 0xA300#16 = .ok (.ldI 0x300#12) ∧ decodeWord 0xBFFF#16 = .ok (.jpV0 0xFFF#12) ∧
    decodeWord 0xC53C#16 = .ok (.rnd 0x5#4 0x3C#8) := ⟨rfl, rfl, rfl⟩

theorem test_decode_display : decodeWord 0xD015#16 = .ok (.drw 0x0#4 0x1#4 0x5#4) ∧
    decodeWord 0xE29E#16 = .ok (.skp 0x2#4) ∧ decodeWord 0xE3A1#16 = .ok (.sknp 0x3#4) := ⟨rfl, rfl, rfl⟩

theorem test_decode_timer : decodeWord 0xF307#16 = .ok (.ldVxDt 0x3#4) ∧ decodeWord 0xF20A#16 = .ok (.ldVxK 0x2#4) ∧
    decodeWord 0xFC15#16 = .ok (.ldDtVx 0xC#4) ∧ decodeWord 0xF018#16 = .ok (.ldStVx 0x0#4) := ⟨rfl, rfl, rfl, rfl⟩

theorem test_decode_memory : decodeWord 0xF11E#16 = .ok (.addI 0x1#4) ∧ decodeWord 0xFA29#16 = .ok (.ldF 0xA#4) ∧
    decodeWord 0xF033#16 = .ok (.ldB 0x0#4) ∧ decodeWord 0xF255#16 = .ok (.ldMemVx 0x2#4) ∧
    decodeWord 0xFF65#16 = .ok (.ldVxMem 0xF#4) := ⟨rfl, rfl, rfl, rfl, rfl⟩

/-- Big-endian bytes (R80), and the words numbered as the opcode table numbers them. -/
theorem test_decode_bytes : decode [0x80#8, 0x14#8, 0xFF#8] = .ok (.addReg 0x0#4 0x1#4, [0xFF#8]) ∧
    decode [0x80#8] = .error .truncated ∧ decodeTableWord 16 0x8014 = some (.addReg 0x0#4 0x1#4) ∧
    decodeTableWord 16 0x00EE = some .ret ∧ decodeTableWord 16 0x0123 = none := ⟨rfl, rfl, rfl, rfl, rfl⟩

/-- Assembly texts of R90 and of the programs P1 to P5. -/
theorem test_assembly : (Instr.call 0x300#12).assembly = "CALL 0x300" ∧
    (Instr.ldImm 0xA#4 0x81#8).assembly = "LD VA, 0x81" ∧ (Instr.shl 0xC#4 0xA#4).assembly = "SHL VC, VA" ∧
    (Instr.ldMemVx 0x2#4).assembly = "LD [I], V2" ∧ (Instr.ldVxK 0x3#4).assembly = "LD V3, K" := by decide

/-! ### The cycle: T10 to T16, T24 -/

theorem test_fetch_past_end :
    (nextOf (step (atPc 0xFFF#16))).map State.es = some (haltAt .addressError 0xFFF#16 0x1000) ∧
      (nextOf (step (atPc 0x1234#16))).map State.es = some (haltAt .addressError 0x1234#16 0x1234) := by decide

theorem test_fetch_odd_pc :
    view (fun t => (t.getV 0x0#4, t.pc)) 0x6007#16 (atPc 0x201#16) = some (0x07#8, 0x203#16) ∧
      view State.es 0x6007#16 ((under { Config.reference with oddPcFetch := .fault }).setPc 0x201#16)
        = some (haltAt .addressError 0x201#16 0x201) := by decide

theorem test_illegal_word_halts :
    (nextOf (step State.reset)).map (fun t => (t.es, t.pc)) =
        some (haltAt .unknownOpcodeError 0x200#16 0x0000, 0x200#16) ∧
      view State.es 0x0123#16 State.reset = some (haltAt .unknownOpcodeError 0x200#16 0x0123) := by decide

/-- The withFetchWord word is run by the next step, from reset and from a PC where no fetch succeeds. -/
theorem test_withFetchWord :
    (nextOf (step (State.reset.withFetchWord 16 0x6AFF))).map (fun t => (t.getV 0xA#4, t.pc)) =
        some (0xFF#8, 0x202#16) ∧
      (nextOf (step ((atPc 0x1000#16).withFetchWord 16 0x6AFF))).map (fun t => (t.getV 0xA#4, t.pc)) =
        some (0xFF#8, 0x202#16) := by decide

/-! ### Control flow: T30 to T37, S5 -/

theorem test_cls : view (fun t => (t.calls, t.pc)) 0x00E0#16 State.reset = some ([.clear], 0x202#16) := by decide

theorem test_ret_underflow : view (fun t => (t.es, t.sp, t.pc)) 0x00EE#16 State.reset =
    some (haltAt .stackUnderflowError 0x200#16 0, 0#8, 0x200#16) := by decide

theorem test_ret_after_call : view (fun t => (t.sp, t.pc, t.stack[0])) 0x00EE#16
    { atPc 0x300#16 with sp := 1#8, stack := State.reset.stack.set 0 0x202#16 } =
    some (0#8, 0x202#16, 0x202#16) := by decide

theorem test_jp : view State.pc 0x1FFF#16 State.reset = some 0xFFF#16 := by decide

theorem test_call_pushes_past_end : view (fun t => (t.stack[0], t.sp, t.pc)) 0x2400#16 (atPc 0xFFE#16) =
    some (0x1000#16, 1#8, 0x400#16) := by decide

theorem test_call_overflow : view (fun t => (t.es, t.sp, t.pc)) 0x2600#16 { atPc 0x500#16 with sp := 16#8 } =
    some (haltAt .stackOverflowError 0x500#16 0, 16#8, 0x500#16) := by decide

/-! ### Skips: T40 to T49 -/

theorem test_se_imm : view State.pc 0x3312#16 (withV 3 0x12#8 0 0#8) = some 0x204#16 ∧
    view State.pc 0x3312#16 (withV 3 0x13#8 0 0#8) = some 0x202#16 := by decide

theorem test_sne_imm : view State.pc 0x4312#16 (withV 3 0x13#8 0 0#8) = some 0x204#16 ∧
    view State.pc 0x4312#16 (withV 3 0x12#8 0 0#8) = some 0x202#16 := by decide

theorem test_se_reg : view State.pc 0x5120#16 (withV 1 7#8 2 7#8) = some 0x204#16 ∧
    view State.pc 0x5120#16 (withV 1 7#8 2 8#8) = some 0x202#16 := by decide

theorem test_sne_reg : view State.pc 0x9120#16 (withV 1 7#8 2 8#8) = some 0x204#16 ∧
    view State.pc 0x9110#16 (withV 1 7#8 2 8#8) = some 0x202#16 := by decide

/-! ### ALU: T60 to T80 -/

/-- V[x], VF and PC after the word. -/
def alu (x : Nib) (w : Word) (s : State) : Option (Byte × Byte × Word) :=
  view (fun t => (t.getV x, t.getV 0xF#4, t.pc)) w s

theorem test_ld_imm : alu 0xA 0x6AFF#16 State.reset = some (0xFF#8, 0#8, 0x202#16) := by decide

theorem test_add_imm_no_carry : alu 2 0x7201#16 (withV 2 0xFF#8 0xF 0#8) = some (0#8, 0#8, 0x202#16) := by decide

theorem test_add_imm_on_vf : alu 0xF 0x7F01#16 (withV 0xF 0xFE#8 0 0#8) = some (0xFF#8, 0xFF#8, 0x202#16) := by decide

theorem test_ld_reg : alu 3 0x8340#16 (withV 3 0#8 4 0x99#8) = some (0x99#8, 0#8, 0x202#16) := by decide

theorem test_logic : alu 0 0x8011#16 ((withV 0 0x0C#8 1 0x0A#8).setVF 7#8) = some (0x0E#8, 7#8, 0x202#16) ∧
    alu 0 0x8012#16 ((withV 0 0x0C#8 1 0x0A#8).setVF 7#8) = some (0x08#8, 7#8, 0x202#16) ∧
    alu 0 0x8013#16 ((withV 0 0x0C#8 1 0x0A#8).setVF 7#8) = some (0x06#8, 7#8, 0x202#16) := by decide

/-- T66. -/
theorem test_logic_resets_vf : alu 0xF 0x8F11#16
    (((under { Config.reference with logicResetsVf := true }).setV 0xF 0x0F#8).setV 1 0xF0#8) =
    some (0#8, 0#8, 0x202#16) := by decide

theorem test_add_reg : alu 0 0x8014#16 (withV 0 0xFF#8 1 0x01#8) = some (0#8, 1#8, 0x202#16) ∧
    alu 0 0x8014#16 (withV 0 0x80#8 1 0x7F#8) = some (0xFF#8, 0#8, 0x202#16) := by decide

/-- T70 and T71: VF as destination and as source. -/
theorem test_add_reg_vf : alu 0xF 0x8F14#16 (withV 0xF 0xFF#8 1 0x01#8) = some (1#8, 1#8, 0x202#16) ∧
    alu 0 0x80F4#16 (withV 0 0x10#8 0xF 0x01#8) = some (0x11#8, 0#8, 0x202#16) := by decide

theorem test_sub : alu 0 0x8015#16 (withV 0 0x01#8 1 0x02#8) = some (0xFF#8, 0#8, 0x202#16) ∧
    alu 0 0x8015#16 (withV 0 0x05#8 1 0x05#8) = some (0#8, 1#8, 0x202#16) := by decide

theorem test_shr : alu 0 0x8016#16 (withV 0 0x05#8 1 0x80#8) = some (0x02#8, 1#8, 0x202#16) ∧
    alu 0 0x8016#16 (((under { Config.reference with shiftSource := .vy }).setV 0 0x05#8).setV 1 0x80#8) =
      some (0x40#8, 0#8, 0x202#16) := by decide

theorem test_subn : alu 0 0x8017#16 (withV 0 0x02#8 1 0x01#8) = some (0xFF#8, 0#8, 0x202#16) ∧
    alu 0 0x8017#16 (withV 0 0x01#8 1 0x02#8) = some (0x01#8, 1#8, 0x202#16) := by decide

theorem test_shl : alu 0 0x801E#16 (withV 0 0x80#8 1 0x01#8) = some (0#8, 1#8, 0x202#16) ∧
    alu 0 0x801E#16 (((under { Config.reference with shiftSource := .vy }).setV 0 0x80#8).setV 1 0x01#8) =
      some (0x02#8, 0#8, 0x202#16) := by decide

/-! ### Index, jump with offset, random: T90 to T95 -/

theorem test_ld_i : view (fun t => (t.i, t.pc)) 0xAFFF#16 State.reset = some (0xFFF#16, 0x202#16) := by decide

theorem test_jp_v0 : view State.pc 0xBFFF#16 (withV 0 0xFF#8 1 0#8) = some 0x10FE#16 := by decide

/-- T94: whatever the port answers, the value is masked; with 0xFF the result is the mask. -/
theorem test_rnd : view (fun t => t.getV 5) 0xC53C#16 State.reset = some (Config.randomByte 0 &&& 0x3C#8) ∧
    (0xFF#8 &&& 0x3C#8) = 0x3C#8 := ⟨rfl, rfl⟩

/-! ### Draw and key skips: T100 to T110 -/

/-- The plot arguments of the calls after the word. -/
def plots (w : Word) (s : State) : Option (List (Option (Nat × Nat × Bool))) := view (fun t => t.calls.map plotArgs) w s

theorem test_drw_range : view (fun t => (t.es, t.calls)) 0xD012#16 (State.reset.setI 0xFFF#16) =
    some (haltAt .addressError 0x200#16 0x1000, []) := by decide

/-- T103: the calls at the right edge, clipped and wrapped. -/
theorem test_drw_edge :
    (plots 0xD011#16 (((withV 0 60#8 1 0#8).setI 0x300#16).setMem [(0x300, 0xFF#8)])).map (List.map (Option.map (·.1)))
        = some [some 60, some 61, some 62, some 63] ∧
      (plots 0xD011#16 ((((under { Config.reference with spriteEdge := .wrap }).setV 0 60#8).setI 0x300#16).setMem
        [(0x300, 0xFF#8)])).map (List.map (Option.map (·.1)))
        = some [some 60, some 61, some 62, some 63, some 0, some 1, some 2, some 3] := by decide

/-- T104: the start coordinates wrap, and bit 7 is the leftmost pixel. -/
theorem test_drw_start :
    (plots 0xD011#16 (((withV 0 70#8 1 40#8).setI 0x300#16).setMem [(0x300, 0x80#8)])).map (List.take 2) =
      some [some (6, 8, true), some (7, 8, false)] := by decide

/-- T100, and T106 whatever the first plot answers: VF is 1 when it answers collided. -/
theorem test_drw_flag : view (fun t => (t.getV 0xF#4, t.calls, t.pc)) 0xD010#16 (withV 0xF 1#8 0 0#8) =
    some (0#8, [], 0x202#16) ∧
    (Config.plotCollides 0 = true →
      view (fun t => t.getV 0xF#4) 0xD011#16 ((State.reset.setI 0xFFF#16).setMem [(0xFFF, 0x80#8)]) = some 1#8) := by
  refine ⟨by decide, fun h => ?_⟩
  have hv : view (fun t => t.getV 0xF#4) 0xD011#16 ((State.reset.setI 0xFFF#16).setMem [(0xFFF, 0x80#8)]) =
      some (collisionFlag (Config.plotCollides 0 || (plotAll (State.reset.record .clear)
        (rowPixels Config.reference 0 0 0x80#8).tail).1)) := rfl
  rw [hv, h]
  rfl

theorem test_skp : view (fun t => t.pc) 0xE29E#16 (withV 2 0x1A#8 0 0#8) =
    some (if Config.keyDown 0 = true then 0x204#16 else 0x202#16) ∧
    view (fun t => t.calls) 0xE29E#16 (withV 2 0x1A#8 0 0#8) = some [.isKeyDown 0xA#4 (Config.keyDown 0)] := ⟨rfl, rfl⟩

theorem test_sknp : view (fun t => t.pc) 0xE2A1#16 (withV 2 0x0A#8 0 0#8) =
    some (if (!Config.keyDown 0) = true then 0x204#16 else 0x202#16) := rfl

/-! ### Timers, key wait, memory: T120 to T138 -/

theorem test_ld_vx_dt : view (fun t => (t.getV 5, t.dt)) 0xF507#16 (State.reset.setDT 0x10#8) =
    some (0x10#8, 0x10#8) := by decide

theorem test_ld_dt_vx : view (fun t => (t.dt, t.st)) 0xF115#16 (withV 1 0x3C#8 0 0#8) = some (0x3C#8, 0#8) := by decide

theorem test_ld_st_vx : view (fun t => (t.dt, t.st, t.soundActive)) 0xF118#16 (withV 1 0x3C#8 0 0#8) =
    some (0#8, 0x3C#8, true) := by decide

theorem test_key_wait : view (fun t => (t.es, t.pc)) 0xF20A#16 State.reset = some (.awaitingKey 2, 0x200#16) := by decide

theorem test_add_i_wraps : view (fun t => (t.i, t.getV 0xF#4)) 0xF11E#16 ((withV 1 1#8 0 0#8).setI 0xFFF#16) =
    some (0#16, 0#8) := by decide

theorem test_ld_f : view State.i 0xF029#16 (withV 0 0x1A#8 1 0#8) = some 0x032#16 := by decide

theorem test_bcd : view (fun t => t.mem.loadBytes 0xFFD 3) 0xF033#16 ((withV 0 0xFF#8 1 0#8).setI 0xFFD#16) =
    some [2#8, 5#8, 5#8] := by decide

theorem test_bcd_range : view (fun t => (t.es, t.mem.read 0xFFE)) 0xF033#16 ((withV 0 0xFF#8 1 0#8).setI 0xFFE#16) =
    some (haltAt .addressError 0x200#16 0x1000, 0#8) := by decide

/-- T135. -/
theorem test_store : view (fun t => (t.mem.loadBytes 0x400 3, t.i)) 0xF255#16
    (((((under { Config.reference with loadstoreIncrementsI := true }).setV 0 1#8).setV 1 2#8).setV 2 3#8).setI
      0x400#16) = some ([1#8, 2#8, 3#8], 0x403#16) := by decide

theorem test_store_range : view (fun t => (t.es, t.mem.read 0xFF1)) 0xFF55#16 ((withV 0 9#8 1 0#8).setI 0xFF1#16) =
    some (haltAt .addressError 0x200#16 0x1000, 0#8) := by decide

theorem test_load : view (fun t => (t.getV 0, t.getV 1, t.getV 2, t.getV 3, t.i)) 0xF265#16
    (((withV 3 7#8 0 9#8).setI 0x300#16).setMem [(0x300, 2#8), (0x301, 5#8), (0x302, 4#8)]) =
    some (2#8, 5#8, 4#8, 7#8, 0x300#16) := by decide

theorem test_load_range : view State.es 0xF165#16 (State.reset.setI 0xFFF#16) =
    some (haltAt .addressError 0x200#16 0x1000) := by decide

/-! ### Host operations: S1, S2, T1 to T9, T22, T23, T121 to T126, R200, R234 -/

/-- The state and reply of a host operation, where it completes. -/
def opOf (op : HostOp) (s : State) : Option (HostReply × State) :=
  match perform op s with
  | .next p => some p
  | .fault _ => none
  | .refused _ => none

theorem test_read_word : readWord [(0xFFE, 0x12#8), (0xFFF, 0x34#8)] 0xFFE = .ok 0x1234#16 ∧
    readWord [] 0xFFF = .error 0x1000 := ⟨rfl, rfl⟩

theorem test_host_byte : (opOf (.hostWriteByte 0x1000 5) State.reset).map (·.1) = some (.addressError 0x1000) ∧
    (opOf (.hostWriteByte 0xFFF 0x105) State.reset).map (·.2.mem) = some [(0xFFF, 5#8)] ∧
    (opOf (.hostReadByte 0x1000) State.reset).map (·.1) = some (.addressError 0x1000) := by decide

theorem test_load_program : (opOf (.loadProgram [1#8, 2#8] 0x600) State.reset).map (·.2.mem) =
      some [(0x600, 1#8), (0x601, 2#8)] ∧
    (opOf (.loadProgram [0xAA#8] 0x1000) State.reset).map (·.1) = some .programTooLargeError ∧
    (opOf (.loadProgram [] 0x1000) State.reset).map (·.1) = some .ok := by decide

theorem test_tick : (opOf .tickTimers ((State.reset.setDT 3#8).setST 1#8)).map (fun p => (p.2.dt, p.2.st)) =
      some (2#8, 0#8) ∧
    (opOf .tickTimers State.reset).map (fun p => (p.2.dt, p.2.st)) = some (0#8, 0#8) := by decide

theorem test_resume_key : (opOf (.resumeKey 0xF#4) { State.reset with es := .awaitingKey 2 }).map
      (fun p => (p.1, p.2.getV 2, p.2.pc, p.2.es)) = some (.ok, 0x0F#8, 0x202#16, .idle) ∧
    (opOf (.resumeKey 3#4) State.reset).map (·.1) = some .notAwaiting := by decide

theorem test_skip_and_continue :
    (opOf .skipAndContinue { State.reset with es := haltAt .unknownOpcodeError 0x200#16 0 }).map
      (fun p => (p.1, p.2.pc, p.2.es)) = some (.ok, 0x202#16, .idle) ∧
    (opOf .skipAndContinue State.reset).map (·.1) = some .notHalted := by decide

theorem test_step_replies : (opOf .step State.reset).map (·.1) =
      some (.halted .unknownOpcodeError { pc := 0x200#16, value := 0 }) ∧
    (opOf .step { State.reset with es := .awaitingKey 3 }).map (·.1) = some .awaitingKey := by decide

theorem test_error_codes : [ErrorKind.addressError, .programTooLargeError, .stackOverflowError, .stackUnderflowError,
    .unknownOpcodeError].map ErrorKind.code = [1, 2, 3, 4, 5] := by decide

/-- The glyphs of 0, 5, A and F of R234, and the length of the table. -/
theorem test_font : standardFont.length = 80 ∧ standardFont.take 5 = [0xF0#8, 0x90#8, 0x90#8, 0x90#8, 0xF0#8] ∧
    (standardFont.drop 25).take 5 = [0xF0#8, 0x80#8, 0xF0#8, 0x10#8, 0xF0#8] ∧
    (standardFont.drop 50).take 5 = [0xF0#8, 0x90#8, 0xF0#8, 0x90#8, 0x90#8] ∧
    standardFont.drop 75 = [0xF0#8, 0x80#8, 0xF0#8, 0x80#8, 0x80#8] := by decide

/-! ### Witnesses: states and operands that meet the hypotheses of the statements -/

theorem witness_EncodeOfDecodedWordIsTheWord : decodeWord 0x8014#16 = .ok (.addReg 0x0#4 0x1#4) := rfl

theorem witness_DecodeRejectsExactlyTheIllegalPatterns :
    illegalWord 0x0000#16 = true ∧ illegalWord 0x00E0#16 = false := by decide

theorem witness_StepRunsTheDecodedInstruction :
    let s := (atPc 0xFFE#16).placeWord 0x2400#16
    s.es = .idle ∧ s.pc.toNat ≤ 0xFFE ∧ (s.cfg.oddPcFetch = .fault → s.pc.toNat % 2 = 0) ∧
      decode [s.mem.read s.pc.toNat, s.mem.read (s.pc.toNat + 1)] = .ok (.call 0x400#12, []) :=
  ⟨rfl, by decide, by decide, rfl⟩

/-- The last PC a fetch succeeds at, an odd one under `ODD_PC_FETCH = fault`, the first one it fails at. -/
theorem witness_FetchReadsBigEndianWordOrRaises :
    (((atPc 0xFFE#16).cfg.oddPcFetch = .fault → (atPc 0xFFE#16).pc.toNat % 2 = 0) ∧ (atPc 0xFFE#16).pc.toNat ≤ 0xFFE) ∧
    (let s := (under { Config.reference with oddPcFetch := .fault }).setPc 0xFFF#16
     s.cfg.oddPcFetch = .fault ∧ s.pc.toNat % 2 = 1 ∧ s.es = .idle) ∧
    ((atPc 0xFFF#16).cfg.oddPcFetch = .fault → (atPc 0xFFF#16).pc.toNat % 2 = 0) ∧ 0xFFE < (atPc 0xFFF#16).pc.toNat ∧
    (atPc 0xFFF#16).es = .idle := by decide

theorem witness_IllegalWordHaltsWithUnknownOpcode :
    State.reset.es = .idle ∧ fetch State.reset = .ok 0#16 ∧ illegalWord 0#16 = true := ⟨rfl, rfl, rfl⟩

theorem witness_KeyWaitIsLeftOnlyByResumeOrReset :
    let s : State := { State.reset with es := .awaitingKey 3 }
    s.es = .awaitingKey 3 ∧ ∃ t, perform (.resumeKey 0xA#4) s = .next (.ok, t) ∧ t.es ≠ .awaitingKey 3 :=
  ⟨rfl, _, rfl, by decide⟩

theorem witness_HaltIsLeftOnlyBySkipOrReset :
    let s : State := { State.reset with es := haltAt .unknownOpcodeError 0x200#16 0 }
    s.es = haltAt .unknownOpcodeError 0x200#16 0 ∧
      ∃ t, perform .skipAndContinue s = .next (.ok, t) ∧ t.es ≠ haltAt .unknownOpcodeError 0x200#16 0 :=
  ⟨rfl, _, rfl, by decide⟩

/-- Each clause at the ends of its range. -/
theorem witness_RetPopsOrRaisesUnderflow :
    State.reset.sp.toNat = 0 ∧ 1 ≤ ({ State.reset with sp := 1#8 } : State).sp.toNat ∧
      ({ State.reset with sp := 16#8 } : State).sp.toNat ≤ 16 := by decide

theorem witness_CallPushesOrRaisesOverflow :
    ({ State.reset with sp := 16#8 } : State).sp.toNat = 16 ∧ ({ State.reset with sp := 15#8 } : State).sp.toNat < 16 := by
  decide

theorem witness_ReturnAfterCallResumesAfterTheCall :
    let s : State := { State.reset with sp := 15#8 }
    s.sp.toNat < 16 ∧ ∃ t, exec (.call 0x300#12) s = .next t ∧
      ({ atPc 0x300#16 with sp := t.sp, stack := t.stack } : State).sp = t.sp := ⟨by decide, _, rfl, rfl⟩

theorem witness_StackPointerPastSixteenStopsCallAndRet :
    16 < ({ State.reset with sp := 17#8 } : State).sp.toNat := by decide

theorem witness_LogicOperationsAndTheirFlagReset : State.reset.cfg.logicResetsVf = false ∧
    (under { Config.reference with logicResetsVf := true }).cfg.logicResetsVf = true := ⟨rfl, rfl⟩

/-- The last sprite in range and the first out of it. -/
theorem witness_DrawMakesTheSpritePlotsAndOrsTheAnswers :
    let s := State.reset.setI 0xFFF#16
    s.i.toNat ≤ 0xFFF ∧ ((2#4).toNat > 0 ∧ s.i.toNat + (2#4).toNat - 1 > 0xFFF) ∧
      ((0#4).toNat = 0 ∨ s.i.toNat + (0#4).toNat - 1 ≤ 0xFFF) ∧ ((1#4).toNat = 0 ∨ s.i.toNat + (1#4).toNat - 1 ≤ 0xFFF) := by
  decide

theorem witness_PlotsStayOnTheScreen :
    State.reset.cfg.wellFormed = true ∧ ∃ t, exec (.drw 0 1 1) State.reset = .next t := ⟨by decide, _, rfl⟩

/-- Unconditionally for no rows; for one row wherever the display answers as a conforming one does. -/
theorem witness_BlankSpriteNeverCollidesOnConformingDisplay :
    (State.reset.i.toNat + (0#4).toNat ≤ 0x1000 ∧ (∀ r, r < (0#4).toNat → State.reset.mem.read (State.reset.i.toNat + r) = 0#8) ∧
      ∃ t, exec (.drw 0 1 0) State.reset = .next t ∧ ConformingDisplay t.calls) ∧
    ((∀ k, Config.plotCollides k = false) →
      ∃ t, exec (.drw 0 1 1) State.reset = .next t ∧ ConformingDisplay t.calls) := by
  refine ⟨⟨by decide, fun r _ => rfl, _, rfl, ?_⟩, fun hk => ⟨_, rfl, ?_⟩⟩
  · intro before x y on collided after h
    have h' : ([] : List PortCall) = before ++ .plot x y on collided :: after := h
    simp at h'
  · have hc : ∀ c ∈ ((plotAll State.reset (drawnPixels State.reset 0 1 1)).2.calls), ∃ x y, c = .plot x y false false := by
      simp [plotAll, drawnPixels, spritePixels, rowPixels, placePixel, State.reset, State.resetWith, Config.reference,
        State.getV, Memory.loadBytes, Memory.read, Memory.unlisted, State.displayPlot, State.record, State.nextCall,
        hk, List.range, List.range.loop]
    intro before x y on collided after h
    obtain ⟨x', y', he⟩ := hc (.plot x y on collided) (by
      have hm : PortCall.plot x y on collided ∈ before ++ .plot x y on collided :: after := by simp
      rw [← h] at hm
      exact hm)
    cases he
    rfl

theorem witness_DrawingASpriteTwiceRestoresTheDisplay :
    ∃ t₁ t₂, exec (.drw 0 1 1) State.reset = .next t₁ ∧
      exec (.drw 0 1 1) { State.reset with calls := t₁.calls } = .next t₂ := ⟨_, _, rfl, rfl⟩

/-- The last block in range and the first out of it; a canonical memory. -/
theorem witness_BcdStoresThreeDigits :
    (State.reset.setI 0xFFE#16).i.toNat ≤ 0xFFF ∧ State.reset.mem.wf = true ∧
      (State.reset.setI 0xFFE#16).i.toNat + 2 > 0xFFF ∧ (State.reset.setI 0xFFD#16).i.toNat + 2 ≤ 0xFFF := by decide

theorem witness_StoreBlockWritesRegistersToMemory :
    (State.reset.setI 0xFF1#16).i.toNat ≤ 0xFFF ∧ State.reset.mem.wf = true ∧
      (State.reset.setI 0xFF1#16).i.toNat + (0xF#4).toNat > 0xFFF ∧
      (State.reset.setI 0xFF0#16).i.toNat + (0xF#4).toNat ≤ 0xFFF := by decide

theorem witness_LoadBlockReadsRegistersFromMemory :
    (State.reset.setI 0xFFF#16).i.toNat ≤ 0xFFF ∧ (State.reset.setI 0xFFF#16).i.toNat + (1#4).toNat > 0xFFF ∧
      (State.reset.setI 0xFFF#16).i.toNat + (0#4).toNat ≤ 0xFFF := by decide

theorem witness_SkipAndContinueLeavesTheHalt :
    ({ State.reset with es := haltAt .addressError 0x200#16 0x1000 } : State).es = haltAt .addressError 0x200#16 0x1000 ∧
      ∀ e info, State.reset.es ≠ .halted e info := ⟨rfl, fun _ _ h => ExecState.noConfusion h⟩

theorem witness_ResumeKeyWritesTheKey :
    ({ State.reset with es := .awaitingKey 0xF } : State).es = .awaitingKey 0xF ∧
      ∀ x, State.reset.es ≠ .awaitingKey x := ⟨rfl, fun _ h => ExecState.noConfusion h⟩

/-- Each clause at the ends of its range, the last byte of memory among them. -/
theorem witness_LoadProgramCopiesOrRefuses :
    State.reset.mem.wf = true ∧ ([] : List Byte).length = 0 ∧ [1#8].length > 0 ∧ 0x1000 + [1#8].length - 1 > 0xFFF ∧
      0xFFF + [1#8].length - 1 ≤ 0xFFF := by decide

theorem witness_HostByteAccessReadsAndWritesOneByte :
    State.reset.mem.wf = true ∧ (0xFFF : Nat) ≤ 0xFFF ∧ (0x1000 : Nat) > 0xFFF := by decide

/-- A program of 3584 bytes, the most that fits at 0x200, below the font and above it. -/
theorem witness_BootPlacesFontAndProgram :
    State.reset.cfg.wellFormed = true ∧
      State.reset.cfg.programOrigin.toNat + (List.replicate 3584 1#8).length ≤ 0x1000 ∧
      State.reset.cfg.fontBase.toNat + 80 ≤ State.reset.cfg.programOrigin.toNat ∧
      ({ Config.reference with fontBase := 0xFB0#16 } : Config).programOrigin.toNat + [1#8].length ≤
        ({ Config.reference with fontBase := 0xFB0#16 } : Config).fontBase.toNat := by
  rw [List.length_replicate]
  decide

theorem witness_ErrorsCommitNothing :
    (State.reset.es = .idle ∧ ∃ t, step State.reset = .next t ∧ t.es = haltAt .unknownOpcodeError 0x200#16 0) ∧
      perform (.hostReadByte 0x1000) State.reset = .next (.addressError 0x1000, State.reset) ∧
      perform (.loadProgram [1#8] 0x1000) State.reset = .next (.programTooLargeError, State.reset) :=
  ⟨⟨rfl, _, rfl, rfl⟩, rfl, rfl⟩

/-- Reset, and a state for each row of the table the statement uses. -/
theorem witness_EveryInstructionCommitsUnlessR201Raises :
    State.reset.Inv ∧ State.reset.es = .idle ∧ ruleR201Error .ret State.reset = some (.stackUnderflowError, 0) ∧
      ruleR201Error .cls State.reset = none ∧ (State.reset.setI 0xFFF#16).Inv ∧
      ruleR201Error (.ldMemVx 1) (State.reset.setI 0xFFF#16) = some (.addressError, 0x1000) := by decide

theorem witness_PcMovesByTheKindOfR104 :
    State.reset.es = .idle ∧ ∃ t, exec (.jpV0 0xFFF#12) State.reset = .next t ∧ t.es = .idle := ⟨rfl, _, rfl, rfl⟩

theorem witness_RegistersChangeOnlyUnderTheirWriters :
    ∃ t, exec (.ldImm 0xA#4 0xFF#8) State.reset = .next t ∧ t.getV 0xA#4 ≠ State.reset.getV 0xA#4 :=
  ⟨_, rfl, by decide⟩

theorem witness_SpecialRegistersChangeOnlyUnderTheirWriters :
    ∃ t u, exec (.call 0x300#12) State.reset = .next t ∧ t.sp ≠ State.reset.sp ∧ t.stack ≠ State.reset.stack ∧
      exec (.ldI 0x300#12) State.reset = .next u ∧ u.i ≠ State.reset.i :=
  ⟨_, _, rfl, by decide, by decide, rfl, by decide⟩

theorem witness_MemoryChangesOnlyUnderItsWriters :
    ∃ t, exec (.ldMemVx 0) (withV 0 9#8 1 0#8) = .next t ∧ t.mem.read 0 ≠ (withV 0 9#8 1 0#8).mem.read 0 :=
  ⟨_, rfl, by decide⟩

theorem witness_PortCallsAreThoseOfTheRules :
    State.reset.es = .idle ∧ (∃ t, exec .ret State.reset = .next t ∧ t.es = haltAt .stackUnderflowError 0x200#16 0) ∧
      ∃ t, exec .cls State.reset = .next t ∧ ∀ e info, t.es ≠ .halted e info :=
  ⟨rfl, ⟨_, rfl, rfl⟩, _, rfl, fun _ _ h => ExecState.noConfusion h⟩

theorem witness_NoOperationChangesTheConfiguration :
    ∃ r t, perform .step State.reset = .next (r, t) := ⟨_, _, rfl⟩

theorem witness_StoredWordIsFetchedByTheNextStep :
    let s := (State.reset.setI 0x202#16).placeWord 0xF155#16
    s.es = .idle ∧ s.mem.wf = true ∧ s.pc.toNat % 2 = 0 ∧ s.pc.toNat + 2 ≤ 0xFFE ∧
      fetch s = .ok (encode (.ldMemVx 0x1#4)) ∧ 1 ≤ (0x1#4).toNat ∧ s.i.toNat = s.pc.toNat + 2 ∧
      s.i.toNat + (0x1#4).toNat ≤ 0xFFF :=
  ⟨rfl, by decide, by decide, by decide, rfl, by decide, by decide, by decide⟩

theorem witness_SelfJumpChangesNothing :
    let s := State.reset.placeWord 0x1200#16
    s.es = .idle ∧ fetch s = .ok (encode (.jp 0x200#12)) ∧ (0x200#12).toNat = s.pc.toNat := ⟨rfl, rfl, by decide⟩

theorem witness_PlacedWordIsRunByTheNextStep :
    State.reset.mem.wf = true ∧ decodeTableWord 16 0x8014 = some (.addReg 0x0#4 0x1#4) := ⟨rfl, rfl⟩

/-- Reset, and states where each part of the invariant is at its bound. -/
theorem witness_StepKeepsTheInvariant :
    State.reset.Inv ∧ ({ State.reset.setI 0xFFF#16 with sp := 16#8 } : State).Inv ∧
      ∃ t, step State.reset = .next t ∧ t.es = haltAt .unknownOpcodeError 0x200#16 0 :=
  ⟨by decide, by decide, _, rfl, rfl⟩

theorem witness_EveryOperationKeepsTheInvariant :
    State.reset.Inv ∧ ∃ t, perform (.hostWriteByte 0xFFF 1) State.reset = .next (.ok, t) := ⟨by decide, _, rfl⟩

theorem witness_KeyWaitStandsAtItsInstruction :
    let s := State.reset.placeWord 0xF30A#16
    s.waitsAtKeyInstr = true ∧ HostOp.step.writesMemory = false ∧
      ∃ t, perform .step s = .next (.awaitingKey, t) ∧ t.es = .awaitingKey 3 := ⟨rfl, rfl, _, rfl, rfl⟩

theorem witness_StepAlwaysAnswersUnderTheInvariant : State.reset.Inv := by decide

theorem witness_EveryRunFromResetIsSafe :
    ∃ t, runOps [.step, .tickTimers, .skipAndContinue] State.reset = .next t := ⟨_, rfl⟩

theorem witness_CanonicalMemoriesThatReadAlikeAreEqual :
    Memory.wf [(0x200, 0x12#8), (0xFFF, 0x34#8)] = true ∧
      Memory.wf (Memory.write (Memory.write [] 0xFFF 0x34#8) 0x200 0x12#8) = true := by decide

/-- The last word in range and the first out of it. -/
theorem witness_MultiByteAccessesAreCheckedWholeAndBigEndian :
    Memory.wf [(0xFFE, 0x12#8), (0xFFF, 0x34#8)] = true ∧ 1 ≤ 2 ∧ 0xFFF + 2 - 1 > 0xFFF ∧ 0xFFE + 2 - 1 ≤ 0xFFF := by decide

end Sys2Proof.Tests
end

section
/-! PROOFS of the scope family. What one instruction, one step and one host operation can end in, said once: a state
with the same configuration that meets the invariant wherever the state before it did, or the fault of an SP past 16.
The statements on the configuration, on a step's answer and on runs are read off these. -/

namespace Sys2Proof.Machine

/-! ### Keeping the configuration and the invariant -/

/-- `t` has the configuration of `s`, and meets the invariant where `s` does. -/
structure State.Keeps (s t : State) : Prop where
  cfg : t.cfg = s.cfg
  inv : s.Inv → t.Inv

theorem State.Keeps.refl (s : State) : s.Keeps s := ⟨rfl, id⟩

theorem State.Keeps.trans {s t u : State} (hst : s.Keeps t) (htu : t.Keeps u) : s.Keeps u :=
  ⟨htu.cfg.trans hst.cfg, htu.inv ∘ hst.inv⟩

/-- The invariant is kept part by part. -/
theorem State.Keeps.of_parts {s t : State} (cfg : t.cfg = s.cfg) (mem : s.mem.wf = true → t.mem.wf = true)
    (i : s.i.toNat ≤ 0xFFF → t.i.toNat ≤ 0xFFF) (sp : s.sp.toNat ≤ 16 → t.sp.toNat ≤ 16)
    (es : s.haltRecorded = true → t.haltRecorded = true) : s.Keeps t := by
  refine ⟨cfg, fun h => ?_⟩
  obtain ⟨hmem, hi, hsp, hes⟩ := (State.inv_iff s).mp h
  exact (State.inv_iff t).mpr ⟨mem hmem, i hi, sp hsp, es hes⟩

/-- An update that ends Idle and leaves memory, I, SP and the configuration alone. -/
theorem State.Keeps.of_frame {s t : State} (es : t.es = .idle) (mem : t.mem = s.mem) (i : t.i = s.i)
    (sp : t.sp = s.sp) (cfg : t.cfg = s.cfg) : s.Keeps t :=
  .of_parts cfg (by rw [mem]; exact id) (by rw [i]; exact id) (by rw [sp]; exact id)
    fun _ => t.haltRecorded_idle es

/-- A new memory in canonical form, everything else as it was. -/
theorem State.Keeps.setMem {s : State} {m : Memory} (h : s.mem.wf = true → m.wf = true) : s.Keeps (s.setMem m) :=
  .of_parts rfl h id id id

/-- A block of bytes that passed the range check of R54 keeps memory canonical. -/
theorem State.Keeps.storeBytes {s : State} {addr : Nat} {bs : List Byte} (hr : rangeError addr bs.length = none) :
    s.Keeps (s.setMem (s.mem.storeBytes addr bs)) := by
  rw [rangeError_eq_none] at hr
  exact .setMem fun hm => Memory.wf_storeBytes hm addr bs (by simp only [lastAddress]; omega)

theorem State.Keeps.setI (s : State) (w : Word) : s.Keeps (s.setI w) :=
  .of_parts rfl id (fun _ => s.setI_i_le w) id id

theorem State.Keeps.blockAdvanceI (s : State) (x : Nib) : s.Keeps (s.blockAdvanceI x) :=
  .of_parts (by simp) (by simp) (s.blockAdvanceI_i_le x) (by simp) (by simp [State.haltRecorded])

/-- Moving PC keeps the invariant where no halt records it. -/
theorem State.Keeps.advance {s : State} (hes : s.es = .idle) : s.Keeps s.advance := .of_frame hes rfl rfl rfl rfl

theorem State.Keeps.halt (s : State) (e : ErrorKind) (value : Nat) (he : e ≠ .programTooLargeError) :
    s.Keeps (s.halt e value) := ⟨rfl, fun h => s.halt_inv e value h he⟩

/-- The reset values meet the invariant in every configuration (R37, R40). -/
theorem State.resetWith_inv (c : Config) : (State.resetWith c).Inv := rfl

/-! ### One instruction -/

/-- What an instruction executed at `s` can end in: a next state that keeps configuration and invariant, or the fault
of CALL and RET, where SP is past 16 (R27). -/
inductive State.KeepsOrFaults (s : State) : Result → Prop where
  | next {t : State} (h : s.Keeps t) : s.KeepsOrFaults (.next t)
  | fault (h : 16 < s.sp.toNat) : s.KeepsOrFaults (.fault .stackPointerOutOfRange)

theorem State.KeepsOrFaults.keeps {s t : State} (h : s.KeepsOrFaults (.next t)) : s.Keeps t := by
  cases h with
  | next hk => exact hk

theorem State.KeepsOrFaults.answers {s : State} {r : Result} (h : s.KeepsOrFaults r) (hsp : s.sp.toNat ≤ 16) :
    ∃ t, r = .next t := by
  cases h with
  | next _ => exact ⟨_, rfl⟩
  | fault hpast => omega

theorem logicResult_keeps {s : State} (hes : s.es = .idle) (x : Nib) (r : Byte) : s.Keeps (s.logicResult x r) := by
  unfold State.logicResult
  split <;> exact .of_frame hes rfl rfl rfl rfl

theorem execRet_keepsOrFaults {s : State} (hes : s.es = .idle) : s.KeepsOrFaults (exec .ret s) := by
  rw [exec_ret]
  split
  · exact .next (.halt s _ _ (by decide))
  · next h0 =>
    split
    · refine .next (.of_parts rfl id id (fun h => ?_) fun _ => State.haltRecorded_idle _ hes)
      have := toNat_sub_one s.sp (by omega)
      simp only
      omega
    · next h16 => exact .fault (by omega)

theorem execCall_keepsOrFaults {s : State} (hes : s.es = .idle) (nnn : Addr) :
    s.KeepsOrFaults (exec (.call nnn) s) := by
  rw [exec_call]
  split
  · exact .next (.halt s _ _ (by decide))
  · split
    · refine .next (.of_parts rfl id id (fun h => ?_) fun _ => State.haltRecorded_idle _ hes)
      simp only [BitVec.toNat_add, BitVec.toNat_ofNat]
      omega
    · exact .fault (by omega)

theorem execDrw_keepsOrFaults {s : State} (hes : s.es = .idle) (x y n : Nib) :
    s.KeepsOrFaults (exec (.drw x y n) s) := by
  rw [exec_drw]
  split
  · exact .next (.halt s _ _ (by decide))
  · exact .next (.of_frame hes rfl rfl rfl rfl)

theorem execLdB_keepsOrFaults {s : State} (hes : s.es = .idle) (x : Nib) : s.KeepsOrFaults (exec (.ldB x) s) := by
  rw [exec_ldB]
  split
  · exact .next (.halt s _ _ (by decide))
  · next hr =>
    rw [← length_bcdDigits (s.getV x)] at hr
    exact .next ((State.Keeps.storeBytes hr).trans (.advance hes))

theorem execLdMemVx_keepsOrFaults {s : State} (hes : s.es = .idle) (x : Nib) :
    s.KeepsOrFaults (exec (.ldMemVx x) s) := by
  rw [exec_ldMemVx]
  split
  · exact .next (.halt s _ _ (by decide))
  · next hr =>
    rw [← length_blockRegs s x] at hr
    exact .next (((State.Keeps.storeBytes hr).trans (.blockAdvanceI _ x)).trans (.advance (by simp [hes])))

theorem execLdVxMem_keepsOrFaults {s : State} (hes : s.es = .idle) (x : Nib) :
    s.KeepsOrFaults (exec (.ldVxMem x) s) := by
  rw [exec_ldVxMem]
  split
  · exact .next (.halt s _ _ (by decide))
  · have hregs : s.Keeps { s with v := loadRegs s.v s.mem s.i.toNat (x.toNat + 1) } := .of_frame hes rfl rfl rfl rfl
    exact .next ((hregs.trans (.blockAdvanceI _ x)).trans (.advance (by simp [hes])))

/-- From Idle every instruction keeps configuration and invariant, or faults where SP is past 16. -/
theorem exec_keepsOrFaults {s : State} (hes : s.es = .idle) (i : Instr) : s.KeepsOrFaults (exec i s) := by
  cases i with
  | ret => exact execRet_keepsOrFaults hes
  | call nnn => exact execCall_keepsOrFaults hes nnn
  | drw x y n => exact execDrw_keepsOrFaults hes x y n
  | ldB x => exact execLdB_keepsOrFaults hes x
  | ldMemVx x => exact execLdMemVx_keepsOrFaults hes x
  | ldVxMem x => exact execLdVxMem_keepsOrFaults hes x
  | ldVxK x => exact .next (.of_parts rfl id id id fun _ => State.haltRecorded_awaiting _ x rfl)
  | ldI _ | addI _ | ldF _ =>
    exact .next ((State.Keeps.setI s _).trans (.advance hes))
  | orReg x y | andReg x y | xorReg x y =>
    simp only [exec_orReg, exec_andReg, exec_xorReg]
    exact .next (logicResult_keeps hes x _)
  | cls | jp _ | seImm _ _ | sneImm _ _ | seReg _ _ | sneReg _ _ | ldImm _ _ | addImm _ _ | ldReg _ _
  | addReg _ _ | sub _ _ | shr _ _ | subn _ _ | shl _ _ | jpV0 _ | rnd _ _ | skp _ | sknp _
  | ldVxDt _ | ldDtVx _ | ldStVx _ =>
    exact .next (.of_frame hes rfl rfl rfl rfl)

/-! ### One step -/

/-- Every step keeps configuration and invariant, or faults where SP is past 16 (R100, R108, R205). -/
theorem step_keepsOrFaults (s : State) : s.KeepsOrFaults (step s) := by
  cases hes : s.es with
  | halted e info => rw [step_halted s e info hes]; exact .next (.refl s)
  | awaitingKey x => rw [step_awaiting s x hes]; exact .next (.refl s)
  | idle =>
    rw [step_idle s hes]
    obtain ⟨a, -, h⟩ | ⟨w, e, -, -, h⟩ | ⟨w, i, -, -, h⟩ := stepIdle_cases s <;> rw [h]
    · exact .next (.halt s _ _ (by decide))
    · exact .next (.halt s _ _ (by decide))
    · exact exec_keepsOrFaults hes i

theorem step_keeps {s t : State} (h : step s = .next t) : s.Keeps t := by
  have hk := step_keepsOrFaults s
  rw [h] at hk
  exact hk.keeps

/-- Under the invariant `SP <= 16`, so a step does not fault. -/
theorem step_answers {s : State} (hs : s.Inv) : ∃ t, step s = .next t := by
  obtain ⟨-, -, hsp, -⟩ := (State.inv_iff s).mp hs
  exact (step_keepsOrFaults s).answers hsp

/-! ### One host operation -/

theorem hostReset_keeps (s : State) : s.Keeps (hostReset s) := ⟨rfl, fun _ => State.resetWith_inv s.cfg⟩

theorem tickTimers_keeps (s : State) : s.Keeps (tickTimers s) := .of_parts rfl id id id id

/-- A program that is loaded fits in memory (R63), so memory stays canonical. -/
theorem loadProgram_wf {m m' : Memory} {bytes : List Byte} {origin : Nat}
    (h : loadProgram m bytes origin = some m') (hm : m.wf = true) : m'.wf = true := by
  unfold loadProgram at h
  split at h
  · cases h; exact hm
  · split at h
    · cases h
    · cases h; exact Memory.wf_storeBytes hm origin bytes (by omega)

theorem writeByte_wf {m m' : Memory} {addr value : Nat} (h : writeByte m addr value = .ok m')
    (hm : m.wf = true) : m'.wf = true := by
  rw [writeByte_eq] at h
  split at h
  · next ha => cases h; exact Memory.wf_write hm addr _ ha
  · cases h

theorem resumeKey_keeps (k : Nib) (s : State) : s.Keeps (resumeKey k s).2 := by
  unfold resumeKey
  split
  · exact .of_frame rfl rfl rfl rfl rfl
  · exact .refl s
  · exact .refl s

theorem skipAndContinue_keeps (s : State) : s.Keeps (skipAndContinue s).2 := by
  unfold skipAndContinue
  split
  · exact .of_frame rfl rfl rfl rfl rfl
  · exact .refl s
  · exact .refl s

/-- Every host operation but `step` answers, and keeps configuration and invariant. -/
theorem perform_keeps_of_ne_step {op : HostOp} (hop : op ≠ .step) (s : State) :
    ∃ r t, perform op s = .next (r, t) ∧ s.Keeps t := by
  cases op with
  | step => exact absurd rfl hop
  | reset => exact ⟨_, _, rfl, hostReset_keeps s⟩
  | tickTimers => exact ⟨_, _, rfl, tickTimers_keeps s⟩
  | observe => exact ⟨_, _, rfl, .refl s⟩
  | resumeKey k => exact ⟨_, _, rfl, resumeKey_keeps k s⟩
  | skipAndContinue => exact ⟨_, _, rfl, skipAndContinue_keeps s⟩
  | loadProgram bytes origin =>
    cases h : loadProgram s.mem bytes origin with
    | none => exact ⟨_, _, perform_loadProgram_none s bytes origin h, .refl s⟩
    | some m => exact ⟨_, _, perform_loadProgram_some s bytes origin m h, .setMem (loadProgram_wf h)⟩
  | hostReadByte addr =>
    simp only [perform, performRead]
    split
    · exact ⟨_, _, rfl, .refl s⟩
    · exact ⟨_, _, rfl, .refl s⟩
  | hostWriteByte addr value =>
    simp only [perform, performWrite]
    split
    · next h => exact ⟨_, _, rfl, .setMem (writeByte_wf h)⟩
    · exact ⟨_, _, rfl, .refl s⟩

/-- `step` as a host operation answers exactly where the step answers. -/
theorem perform_step_eq_next {s t : State} {r : HostReply} (h : perform .step s = .next (r, t)) :
    step s = .next t := by
  simp only [perform, performStep] at h
  split at h
  · next hs => cases h; exact hs
  · cases h
  · cases h

/-- Every host operation that answers keeps configuration and invariant (R8, R40). -/
theorem perform_keeps {op : HostOp} {s t : State} {r : HostReply} (h : perform op s = .next (r, t)) :
    s.Keeps t := by
  by_cases hop : op = .step
  · subst hop; exact step_keeps (perform_step_eq_next h)
  · obtain ⟨r', t', h', hk⟩ := perform_keeps_of_ne_step hop s
    cases h'.symm.trans h
    exact hk

/-- Under the invariant every host operation answers. -/
theorem perform_answers {s : State} (hs : s.Inv) (op : HostOp) : ∃ r t, perform op s = .next (r, t) := by
  by_cases hop : op = .step
  · subst hop
    obtain ⟨t, ht⟩ := step_answers hs
    exact ⟨_, t, perform_step_next s t ht⟩
  · obtain ⟨r, t, h, -⟩ := perform_keeps_of_ne_step hop s
    exact ⟨r, t, h⟩

/-! ### A run -/

/-- From a state that meets the invariant every run is performed to its end, and keeps configuration and invariant. -/
theorem runOps_keeps (ops : List HostOp) {s : State} (hs : s.Inv) : ∃ t, runOps ops s = .next t ∧ s.Keeps t := by
  induction ops generalizing s with
  | nil => exact ⟨s, runOps_nil s, .refl s⟩
  | cons op ops ih =>
    obtain ⟨r, u, hu⟩ := perform_answers hs op
    have hk := perform_keeps hu
    obtain ⟨t, ht, hkt⟩ := ih (hk.inv hs)
    exact ⟨t, (runOps_cons op ops s u r hu).trans ht, hk.trans hkt⟩

/-! ### The obligations -/

/-- Settles O48, from what every answering operation keeps. -/
theorem noOperationChangesTheConfiguration : Obligations.NoOperationChangesTheConfiguration := by
  intro op s t r h
  exact (perform_keeps h).cfg

/-- Settles O56: a step faults only where SP is past 16, which the invariant excludes. -/
theorem stepAlwaysAnswersUnderTheInvariant : Obligations.StepAlwaysAnswersUnderTheInvariant := by
  intro s hs
  exact step_answers hs

/-- Settles O57, by induction on the operations (`runOps_keeps`) from the reset state. -/
theorem everyRunFromResetIsSafe : Obligations.EveryRunFromResetIsSafe := by
  intro c ops
  have hreset := State.resetWith_inv c
  obtain ⟨t, ht, hk⟩ := runOps_keeps ops hreset
  refine ⟨⟨t, ht⟩, fun u hu => ?_⟩
  cases ht.symm.trans hu
  exact ⟨hk.inv hreset, hk.cfg⟩

end Sys2Proof.Machine
end

section
/-! PROOFS of the state family. Which parts of the state an instruction may write, said once as the frame of every
instruction; the call stack through a call and its return; the key wait through every operation. The statements on the
invariant are read off what every operation keeps. -/

namespace Sys2Proof.Claims

open Sys2Proof Sys2Proof.Machine

/-- A frame from the fields of the two states. -/
theorem UnchangedBut.of_fields {ps : List Part} {s t : State} (mem : .mem ∉ ps → t.mem = s.mem)
    (v : .v ∉ ps → t.v = s.v) (i : .i ∉ ps → t.i = s.i) (pc : .pc ∉ ps → t.pc = s.pc) (sp : .sp ∉ ps → t.sp = s.sp)
    (stack : .stack ∉ ps → t.stack = s.stack) (dt : .dt ∉ ps → t.dt = s.dt) (st : .st ∉ ps → t.st = s.st)
    (es : .es ∉ ps → t.es = s.es) (calls : .calls ∉ ps → t.calls = s.calls) (cfg : .cfg ∉ ps → t.cfg = s.cfg) :
    UnchangedBut ps s t := by
  intro p hp
  cases p with
  | mem => exact fun a => by rw [mem hp]
  | v => exact fun j => by rw [State.getV, v hp, State.getV]
  | i => exact i hp
  | pc => exact pc hp
  | sp => exact sp hp
  | stack => exact stack hp
  | dt => exact dt hp
  | st => exact st hp
  | es => exact es hp
  | calls => exact calls hp
  | cfg => exact cfg hp

end Sys2Proof.Claims

namespace Sys2Proof.Machine

open Sys2Proof.Claims

/-! ### The invariant -/

/-- Settles O53, from what a step keeps. -/
theorem stepKeepsTheInvariant : Obligations.StepKeepsTheInvariant := by
  intro s t hs h
  exact (step_keeps h).inv hs

/-- Settles O54, from what every answering operation keeps. -/
theorem everyOperationKeepsTheInvariant : Obligations.EveryOperationKeepsTheInvariant := by
  intro op s t r hs h
  exact (perform_keeps h).inv hs

/-- Settles O52: the reset values meet the invariant, and no reset state waits for a key. -/
theorem resetMeetsTheInvariants : Obligations.ResetMeetsTheInvariants :=
  ⟨fun c => ⟨State.resetWith_inv c, rfl⟩, rfl⟩

/-! ### The call stack -/

/-- A call with an entry free pushes the address of the next word (R123). -/
theorem exec_call_free (nnn : Addr) (s : State) (h : s.sp.toNat < 16) :
    exec (.call nnn) s =
      .next { s with stack := s.stack.set s.sp.toNat (s.pc + 2#16) h, sp := s.sp + 1#8, pc := addrAsWord nnn } := by
  rw [exec_call, if_neg (by omega), dif_pos h]

/-- A return with 1 to 16 live entries pops the top one (R121). -/
theorem exec_ret_live (s : State) (h0 : s.sp.toNat ≠ 0) (h : s.sp.toNat ≤ 16) :
    exec .ret s = .next { s with sp := s.sp - 1#8, pc := s.stack[s.sp.toNat - 1] } := by
  rw [exec_ret, if_neg h0, dif_pos h]

/-- A return that finds SP and STACK as a push of `ra` at `s` left them takes `ra` and the depth of `s`. -/
theorem exec_ret_pushed {s u : State} {ra : Word} (h : s.sp.toNat < 16) (hsp : u.sp = s.sp + 1#8)
    (hstack : u.stack = s.stack.set s.sp.toNat ra h) : exec .ret u = .next { u with sp := s.sp, pc := ra } := by
  have hdepth : u.sp.toNat = s.sp.toNat + 1 := by
    rw [hsp, BitVec.toNat_add, BitVec.toNat_ofNat]
    omega
  have htop : u.stack[u.sp.toNat - 1]'(by omega) = ra := by
    simp only [hdepth, hstack, Nat.add_sub_cancel, Vector.getElem_set_self]
  rw [exec_ret_live u (by omega) (by omega), htop, hsp, BitVec.add_sub_cancel]

/-- Settles O14: the entry on top is the one the call pushed, and the entries below it are those of `s`. -/
theorem returnAfterCallResumesAfterTheCall : Obligations.ReturnAfterCallResumesAfterTheCall := by
  intro s t u nnn hs hcall hsp hstack
  rw [exec_call_free nnn s hs] at hcall
  cases hcall
  refine ⟨_, exec_ret_pushed hs hsp hstack, by simp, rfl, fun j hj => ?_⟩
  have hne : s.sp.toNat ≠ j := by omega
  simp [hstack, Vector.getElem?_set_ne, hne]

/-- Settles O15: past 16 there is no entry to push to and none to pop. -/
theorem stackPointerPastSixteenStopsCallAndRet : Obligations.StackPointerPastSixteenStopsCallAndRet := by
  intro s nnn h
  constructor
  · rw [exec_call, if_neg (by omega), dif_neg (by omega)]
  · rw [exec_ret, if_neg (by omega), dif_neg (by omega)]

/-! ### The frame of one instruction -/

/-- The parts of the state that an instruction may write where it does not halt the core. -/
def writtenParts (c : Config) : Instr → List Part
  | .jp _ | .jpV0 _ | .seImm _ _ | .sneImm _ _ | .seReg _ _ | .sneReg _ _ => [.pc]
  | .cls | .skp _ | .sknp _ => [.calls, .pc]
  | .ret => [.sp, .pc]
  | .call _ => [.stack, .sp, .pc]
  | .ldImm _ _ | .addImm _ _ | .ldReg _ _ | .orReg _ _ | .andReg _ _ | .xorReg _ _ | .addReg _ _ | .sub _ _
  | .shr _ _ | .subn _ _ | .shl _ _ | .ldVxDt _ => [.v, .pc]
  | .rnd _ _ | .drw _ _ _ => [.v, .calls, .pc]
  | .ldI _ | .addI _ | .ldF _ => [.i, .pc]
  | .ldDtVx _ => [.dt, .pc]
  | .ldStVx _ => [.st, .pc]
  | .ldVxK _ => [.es]
  | .ldB _ => [.mem, .pc]
  | .ldMemVx _ => [.mem, .pc] ++ if c.loadstoreIncrementsI then [.i] else []
  | .ldVxMem _ => [.v, .pc] ++ if c.loadstoreIncrementsI then [.i] else []

theorem State.halt_unchangedBut (s : State) (e : ErrorKind) (value : Nat) : UnchangedBut [.es] s (s.halt e value) := by
  apply UnchangedBut.of_fields <;> simp [State.halt]

theorem State.logicResult_unchangedBut (s : State) (x : Nib) (r : Byte) :
    UnchangedBut [.v, .pc] s (s.logicResult x r) := by
  unfold State.logicResult
  split
  · apply UnchangedBut.of_fields <;> simp
  · apply UnchangedBut.of_fields <;> simp

/-- What an instruction that answers did: it raised, so that only ES changed (R203), or it changed nothing but its
`writtenParts`. -/
theorem exec_frame {i : Instr} {s t : State} (h : exec i s = .next t) :
    (∃ e value, t = s.halt e value) ∨ UnchangedBut (writtenParts s.cfg i) s t := by
  cases i with
  | cls | jp _ | seImm _ _ | sneImm _ _ | seReg _ _ | sneReg _ _ | ldImm _ _ | addImm _ _ | ldReg _ _ | addReg _ _
  | sub _ _ | shr _ _ | subn _ _ | shl _ _ | ldI _ | jpV0 _ | rnd _ _ | skp _ | sknp _ | ldVxDt _ | ldVxK _
  | ldDtVx _ | ldStVx _ | addI _ | ldF _ =>
    cases h
    right
    apply UnchangedBut.of_fields <;> simp [writtenParts, State.displayClear]
  | orReg x _ | andReg x _ | xorReg x _ =>
    simp only [exec_orReg, exec_andReg, exec_xorReg] at h
    cases h
    exact .inr (s.logicResult_unchangedBut x _)
  | ret | call _ =>
    simp only [exec_ret, exec_call] at h
    split at h
    · cases h; exact .inl ⟨_, _, rfl⟩
    · split at h
      · cases h
        right
        apply UnchangedBut.of_fields <;> simp [writtenParts]
      · cases h
  | drw _ _ _ | ldB _ | ldMemVx _ | ldVxMem _ =>
    simp only [exec_drw, exec_ldB, exec_ldMemVx, exec_ldVxMem] at h
    split at h
    · cases h; exact .inl ⟨_, _, rfl⟩
    · cases h
      right
      apply UnchangedBut.of_fields <;> simp +contextual [writtenParts, State.blockAdvanceI_i]

/-- A part other than ES that differs after an instruction is one of its `writtenParts`. -/
theorem mem_writtenParts {i : Instr} {s t : State} (h : exec i s = .next t) {p : Part} (hes : p ≠ .es)
    (hp : ¬ p.same s t) : p ∈ writtenParts s.cfg i := by
  by_contra hmem
  rcases exec_frame h with ⟨e, value, rfl⟩ | hframe
  · exact hp (s.halt_unchangedBut e value p (by simpa using hes))
  · exact hp (hframe p hmem)

/-! ### Registers -/

theorem State.eq_of_getV_setV_ne {s : State} {x j : Nib} {b : Byte} (h : (s.setV x b).getV j ≠ s.getV j) :
    j = x := by
  by_contra hj
  exact h (s.getV_setV_other x j b hj)

theorem State.eq_of_getV_setV_setVF_ne {s : State} {x j : Nib} {b f : Byte}
    (h : ((s.setV x b).setVF f).getV j ≠ s.getV j) : j = x ∨ j = 0xF#4 := by
  by_contra hj
  rw [not_or] at hj
  exact h (by rw [State.getV_setVF, if_neg hj.2, State.getV_setV_other _ _ _ _ hj.1])

theorem State.eq_of_getV_logicResult_ne {s : State} {x j : Nib} {r : Byte}
    (h : (s.logicResult x r).getV j ≠ s.getV j) : j = x ∨ s.cfg.logicResetsVf = true ∧ j = 0xF#4 := by
  unfold State.logicResult at h
  split at h
  · next hc => exact (eq_of_getV_setV_setVF_ne h).imp_right fun hj => ⟨hc, hj⟩
  · exact .inl (eq_of_getV_setV_ne h)

theorem getElem_loadRegs_of_le (v : Vector Byte 16) (m : Memory) (addr : Nat) {k j : Nat} (hj : j < 16) (h : k ≤ j) :
    (loadRegs v m addr k)[j] = v[j] := by
  rw [getElem_loadRegs v m addr k j hj, if_neg (by omega)]

/-- Settles O44: the register writers one by one; every other instruction leaves the registers out of its frame. -/
theorem registersChangeOnlyUnderTheirWriters : Obligations.RegistersChangeOnlyUnderTheirWriters := by
  intro i s t j h hj
  have hv : Part.v ∈ writtenParts s.cfg i := mem_writtenParts h (by decide) fun hsame => hj (hsame j)
  cases i with
  | ldImm _ _ | addImm _ _ | ldReg _ _ | rnd _ _ | ldVxDt _ =>
    cases h
    exact State.eq_of_getV_setV_ne hj
  | addReg _ _ | sub _ _ | shr _ _ | subn _ _ | shl _ _ =>
    cases h
    exact State.eq_of_getV_setV_setVF_ne hj
  | orReg _ _ | andReg _ _ | xorReg _ _ =>
    simp only [exec_orReg, exec_andReg, exec_xorReg] at h
    cases h
    exact State.eq_of_getV_logicResult_ne hj
  | drw _ _ _ =>
    rw [exec_drw] at h
    split at h
    · cases h; exact absurd rfl hj
    · cases h; exact State.eq_of_getV_setV_ne hj
  | ldVxMem x =>
    rw [exec_ldVxMem] at h
    split at h
    · cases h; exact absurd rfl hj
    · cases h
      by_contra hle
      have hx : x.toNat < j.toNat := Nat.lt_of_not_le hle
      rw [State.advance_getV, State.blockAdvanceI_getV] at hj
      exact hj (getElem_loadRegs_of_le _ _ _ j.isLt hx)
  | _ => simp [writtenParts] at hv

/-! ### I, SP, STACK and the timers -/

theorem ruleR24WritesI_of_mem_writtenParts {c : Config} {i : Instr} (h : .i ∈ writtenParts c i) :
    ruleR24WritesI c i = true := by
  cases i <;> simp_all [writtenParts, ruleR24WritesI]

theorem ret_or_call_of_sp_mem_writtenParts {c : Config} {i : Instr} (h : .sp ∈ writtenParts c i) :
    i = .ret ∨ ∃ nnn, i = .call nnn := by
  cases i <;> simp_all [writtenParts]

theorem call_of_stack_mem_writtenParts {c : Config} {i : Instr} (h : .stack ∈ writtenParts c i) :
    ∃ nnn, i = .call nnn := by
  cases i <;> simp_all [writtenParts]

theorem ldDtVx_of_dt_mem_writtenParts {c : Config} {i : Instr} (h : .dt ∈ writtenParts c i) :
    ∃ x, i = .ldDtVx x := by
  cases i <;> simp_all [writtenParts]

theorem ldStVx_of_st_mem_writtenParts {c : Config} {i : Instr} (h : .st ∈ writtenParts c i) :
    ∃ x, i = .ldStVx x := by
  cases i <;> simp_all [writtenParts]

theorem ldVxK_of_es_mem_writtenParts {c : Config} {i : Instr} (h : .es ∈ writtenParts c i) :
    ∃ x, i = .ldVxK x := by
  cases i <;> simp_all [writtenParts]

/-- Settles O45, from the parts each instruction writes. -/
theorem specialRegistersChangeOnlyUnderTheirWriters : Obligations.SpecialRegistersChangeOnlyUnderTheirWriters := by
  intro i s t h
  have written {p : Part} (hes : p ≠ .es) (hp : ¬ p.same s t) := mem_writtenParts h hes hp
  exact ⟨fun hi => ruleR24WritesI_of_mem_writtenParts (written (by decide) hi),
    fun hsp => ret_or_call_of_sp_mem_writtenParts (written (by decide) hsp),
    fun hstack => call_of_stack_mem_writtenParts (written (by decide) hstack),
    fun hdt => ldDtVx_of_dt_mem_writtenParts (written (by decide) hdt),
    fun hst => ldStVx_of_st_mem_writtenParts (written (by decide) hst)⟩

/-! ### The key wait -/

/-- The last invariant of R40 as a statement about the fetched word. -/
theorem State.waitsAtKeyInstr_iff (s : State) :
    s.waitsAtKeyInstr = true ↔
      ∀ x, s.es = .awaitingKey x → ∃ w, fetch s = .ok w ∧ decodeWord w = .ok (.ldVxK x) := by
  unfold State.waitsAtKeyInstr
  cases hes : s.es with
  | idle | halted _ _ => simp
  | awaitingKey x =>
    simp only [ExecState.awaitingKey.injEq, forall_eq']
    cases fetch s with
    | error a => simp
    | ok w =>
      simp only [Except.ok.injEq, exists_eq_left']
      split <;> simp_all

/-- From Idle only `Fx0A` begins a wait, for its own x. -/
theorem eq_ldVxK_of_exec_awaiting {i : Instr} {s t : State} {x : Nib} (hes : s.es = .idle) (h : exec i s = .next t)
    (ht : t.es = .awaitingKey x) : i = .ldVxK x := by
  rcases exec_frame h with ⟨e, value, rfl⟩ | hframe
  · cases ht
  · have hw : Part.es ∈ writtenParts s.cfg i := by
      by_contra hmem
      have hsame : t.es = s.es := hframe .es hmem
      rw [hsame, hes] at ht
      cases ht
    obtain ⟨y, rfl⟩ := ldVxK_of_es_mem_writtenParts hw
    cases h
    cases ht
    rfl

/-- A step leaves the core waiting only at the `Fx0A` it fetched, or where it was waiting before. -/
theorem step_waitsAtKeyInstr {s t : State} (hs : s.waitsAtKeyInstr = true) (h : step s = .next t) :
    t.waitsAtKeyInstr = true := by
  cases hes : s.es with
  | halted e info => rw [step_halted s e info hes] at h; cases h; exact hs
  | awaitingKey x => rw [step_awaiting s x hes] at h; cases h; exact hs
  | idle =>
    rw [step_idle s hes] at h
    obtain ⟨a, -, hstep⟩ | ⟨w, e, -, -, hstep⟩ | ⟨w, i, hw, hd, hstep⟩ := stepIdle_cases s <;> rw [hstep] at h
    · cases h; rfl
    · cases h; rfl
    · rw [State.waitsAtKeyInstr_iff]
      intro x hx
      obtain rfl := eq_ldVxK_of_exec_awaiting hes h hx
      cases h
      exact ⟨w, hw, hd⟩

theorem resumeKey_waitsAtKeyInstr (k : Nib) {s : State} (hs : s.waitsAtKeyInstr = true) :
    (resumeKey k s).2.waitsAtKeyInstr = true := by
  unfold resumeKey
  split
  · rfl
  · exact hs
  · exact hs

theorem skipAndContinue_waitsAtKeyInstr {s : State} (hs : s.waitsAtKeyInstr = true) :
    (skipAndContinue s).2.waitsAtKeyInstr = true := by
  unfold skipAndContinue
  split
  · rfl
  · exact hs
  · exact hs

/-- Settles O55: an operation that does not write memory ends the wait, leaves it as it is, or is the step that begins
it at the word it fetched. -/
theorem keyWaitStandsAtItsInstruction : Obligations.KeyWaitStandsAtItsInstruction := by
  intro op s t r hs hop h
  cases op with
  | loadProgram _ _ | hostWriteByte _ _ => cases hop
  | step => exact step_waitsAtKeyInstr hs (perform_step_eq_next h)
  | reset => cases h; rfl
  | tickTimers => cases h; exact hs
  | observe => cases h; exact hs
  | resumeKey k => cases h; exact resumeKey_waitsAtKeyInstr k hs
  | skipAndContinue => cases h; exact skipAndContinue_waitsAtKeyInstr hs
  | hostReadByte addr =>
    simp only [perform, performRead] at h
    split at h
    · cases h; exact hs
    · cases h; exact hs

end Sys2Proof.Machine
end

section
/-! PROOFS of the memory family. A canonical memory is determined by its reads; the value of a block of bytes and the
bytes of a value are the same big-endian digits; memory is written by `Fx33` and `Fx55` alone, inside their block, and
the host's accesses change nothing else. -/

namespace Sys2Proof.Machine

open Sys2Proof.Claims

/-! ### The canonical form -/

theorem Memory.wfFrom_cons (lo a : Nat) (u : Byte) (m : Memory) :
    Memory.wfFrom lo ((a, u) :: m) = true ↔
      lo ≤ a ∧ a ≤ lastAddress ∧ u ≠ Memory.unlisted ∧ Memory.wfFrom (a + 1) m = true := by
  simp [Memory.wfFrom, and_assoc]

theorem Memory.read_head (a : Nat) (u : Byte) (m : Memory) : Memory.read ((a, u) :: m) a = u := if_pos rfl

/-- The first listed address is the lowest one that does not read as unlisted. -/
theorem Memory.head_le_of_read_ne {lo a c : Nat} {u : Byte} {m : Memory} (h : Memory.wfFrom lo ((a, u) :: m) = true)
    (hc : Memory.read ((a, u) :: m) c ≠ Memory.unlisted) : a ≤ c := by
  by_contra hlt
  obtain ⟨-, ha, hu, hm⟩ := (Memory.wfFrom_cons lo a u m).mp h
  exact hc (Memory.read_below ((Memory.wfFrom_cons a a u m).mpr ⟨le_rfl, ha, hu, hm⟩) (Nat.lt_of_not_le hlt))

/-- Below a canonical tail's first possible address nothing is listed, so tails read alike where the lists do. -/
theorem Memory.tails_read_alike {a : Nat} {u : Byte} {m m' : Memory} (hm : Memory.wfFrom (a + 1) m = true)
    (hm' : Memory.wfFrom (a + 1) m' = true)
    (h : ∀ c, Memory.read ((a, u) :: m) c = Memory.read ((a, u) :: m') c) (c : Nat) : m.read c = m'.read c := by
  by_cases hc : c = a
  · rw [Memory.read_below hm (by omega), Memory.read_below hm' (by omega)]
  · simpa [Memory.read_cons, hc] using h c

/-- Memories canonical from one address on that read alike are equal lists: their heads agree, and so do their
tails. -/
theorem Memory.eq_of_read_eq_from {lo : Nat} {m m' : Memory} (hm : Memory.wfFrom lo m = true)
    (hm' : Memory.wfFrom lo m' = true) (h : ∀ c, m.read c = m'.read c) : m = m' := by
  induction m generalizing lo m' with
  | nil =>
    cases m' with
    | nil => rfl
    | cons c' m' =>
      obtain ⟨b, w⟩ := c'
      obtain ⟨-, -, hw, -⟩ := (Memory.wfFrom_cons lo b w m').mp hm'
      exact absurd ((Memory.read_head b w m').symm.trans (h b).symm) hw
  | cons c m ih =>
    obtain ⟨a, u⟩ := c
    obtain ⟨-, -, hu, htail⟩ := (Memory.wfFrom_cons lo a u m).mp hm
    cases m' with
    | nil => exact absurd ((Memory.read_head a u m).symm.trans (h a)) hu
    | cons c' m' =>
      obtain ⟨b, w⟩ := c'
      obtain ⟨-, -, hw, htail'⟩ := (Memory.wfFrom_cons lo b w m').mp hm'
      have hba : b ≤ a := Memory.head_le_of_read_ne hm' (by rwa [← h, Memory.read_head])
      have hab : a ≤ b := Memory.head_le_of_read_ne hm (by rwa [h, Memory.read_head])
      obtain rfl : a = b := Nat.le_antisymm hab hba
      obtain rfl : u = w := by simpa [Memory.read_head] using h a
      rw [ih htail htail' (Memory.tails_read_alike htail htail' h)]

/-- Settles O58, by induction on the two lists. -/
theorem canonicalMemoriesThatReadAlikeAreEqual : Obligations.CanonicalMemoriesThatReadAlikeAreEqual := by
  intro m m' hm hm' h
  exact Memory.eq_of_read_eq_from hm hm' h

/-! ### Bytes and their big-endian value -/

theorem valueOfBytes_concat (bs : List Byte) (b : Byte) :
    valueOfBytes (bs ++ [b]) = valueOfBytes bs * 256 + b.toNat := by
  simp [valueOfBytes]

theorem valueOfBytes_lt (bs : List Byte) : valueOfBytes bs < 256 ^ bs.length := by
  induction bs using List.reverseRecOn with
  | nil => simp [valueOfBytes]
  | append_singleton bs b ih =>
    have hb := b.isLt
    rw [valueOfBytes_concat, List.length_append, List.length_singleton, Nat.pow_succ]
    omega

/-- Byte `j` of a block is digit `j` from the top of its value in base 256 (R52). -/
theorem toNat_getElem_eq_valueOfBytes (bs : List Byte) (j : Nat) (hj : j < bs.length) :
    bs[j].toNat = valueOfBytes bs / 256 ^ (bs.length - 1 - j) % 256 := by
  induction bs using List.reverseRecOn with
  | nil => simp at hj
  | append_singleton bs b ih =>
    have hb := b.isLt
    rw [valueOfBytes_concat]
    rw [List.length_append, List.length_singleton] at hj ⊢
    by_cases hlast : j = bs.length
    · subst hlast
      simp
      omega
    · have hexp : bs.length + 1 - 1 - j = (bs.length - 1 - j) + 1 := by omega
      rw [List.getElem_append_left (by omega), ih (by omega), hexp, Nat.pow_succ', ← Nat.div_div_eq_div_mul]
      congr 2
      omega

@[simp] theorem length_bytesOfValue (n v : Nat) : (bytesOfValue n v).length = n := by
  induction n with
  | zero => rfl
  | succ n ih => simp [bytesOfValue, ih]

/-- Byte `j` of a value's `n` bytes is its digit `j` from the top in base 256 (R53). -/
theorem toNat_getElem_bytesOfValue (n v j : Nat) (hj : j < (bytesOfValue n v).length) :
    (bytesOfValue n v)[j].toNat = v / 256 ^ (n - 1 - j) % 256 := by
  induction n generalizing j with
  | zero => simp at hj
  | succ n ih =>
    cases j with
    | zero => simp [bytesOfValue]
    | succ j =>
      have hexp : n + 1 - 1 - (j + 1) = n - 1 - j := by omega
      simp only [bytesOfValue, List.getElem_cons_succ, hexp]
      exact ih j _

/-! ### The checked accesses -/

theorem rangeError_past {addr n : Nat} (h : 0xFFF < addr + n - 1) : rangeError addr n = some (max addr 0x1000) :=
  (rangeError_eq_some addr n _).mpr ⟨h, rfl⟩

theorem memRead_past (m : Memory) {addr n : Nat} (h : 0xFFF < addr + n - 1) :
    memRead m addr n = .error (max addr 0x1000) := by
  simp [memRead, rangeError_past h]

theorem memWrite_past (m : Memory) {addr n : Nat} (v : Nat) (h : 0xFFF < addr + n - 1) :
    memWrite m addr n v = .error (max addr 0x1000) := by
  simp [memWrite, rangeError_past h]

theorem memRead_inRange (m : Memory) {addr n : Nat} (h : addr + n - 1 ≤ 0xFFF) :
    memRead m addr n = .ok (valueOfBytes (m.loadBytes addr n)) := by
  simp [memRead, (rangeError_eq_none addr n).mpr h]

theorem memWrite_inRange (m : Memory) {addr n : Nat} (v : Nat) (h : addr + n - 1 ≤ 0xFFF) :
    memWrite m addr n v = .ok (m.storeBytes addr (bytesOfValue n v)) := by
  simp [memWrite, (rangeError_eq_none addr n).mpr h]

/-- The byte at `addr + j` is digit `j` of the value of the block at `addr`. -/
theorem Memory.toNat_read_eq_valueOfBytes (m : Memory) (addr : Nat) {n j : Nat} (hj : j < n) :
    (m.read (addr + j)).toNat = valueOfBytes (m.loadBytes addr n) / 256 ^ (n - 1 - j) % 256 := by
  have hlen : j < (m.loadBytes addr n).length := by simpa using hj
  rw [← m.getElem_loadBytes addr n j hlen, toNat_getElem_eq_valueOfBytes, m.length_loadBytes]

/-- After a value's bytes are stored, the byte at `addr + j` is its digit `j`. -/
theorem Memory.toNat_read_storeBytes_value {m : Memory} (hm : m.wf = true) {addr n j : Nat} (v : Nat)
    (h : addr + n - 1 ≤ 0xFFF) (hj : j < n) :
    ((m.storeBytes addr (bytesOfValue n v)).read (addr + j)).toNat = v / 256 ^ (n - 1 - j) % 256 := by
  have hfit : addr + (bytesOfValue n v).length ≤ lastAddress + 1 := by
    rw [length_bytesOfValue, lastAddress]
    omega
  rw [Memory.read_storeBytes_inside hm addr _ hfit j (by simpa using hj), toNat_getElem_bytesOfValue]

/-- Settles O59, from the digits of a block that is read and of one that is written. -/
theorem multiByteAccessesAreCheckedWholeAndBigEndian : Obligations.MultiByteAccessesAreCheckedWholeAndBigEndian := by
  intro m addr n v hm hn
  refine ⟨fun hpast => ⟨memRead_past m hpast, memWrite_past m v hpast⟩, fun hin => ⟨?_, ?_⟩⟩
  · have hlt := valueOfBytes_lt (m.loadBytes addr n)
    rw [m.length_loadBytes] at hlt
    exact ⟨_, memRead_inRange m hin, hlt, fun j hj => m.toNat_read_eq_valueOfBytes addr hj⟩
  · have hwrite := memWrite_inRange m v hin
    refine ⟨_, hwrite, memWrite_wf hm addr n v hn hwrite,
      fun j hj => Memory.toNat_read_storeBytes_value hm v hin hj, fun a ha => ?_⟩
    exact m.read_storeBytes_outside addr a _ (by rwa [length_bytesOfValue])

/-! ### Host accesses -/

theorem State.setMem_unchangedBut (s : State) (m : Memory) : UnchangedBut [.mem] s (s.setMem m) := by
  apply UnchangedBut.of_fields <;> simp

theorem loadProgram_empty (m : Memory) (origin : Nat) {bytes : List Byte} (h : bytes.length = 0) :
    loadProgram m bytes origin = some m := if_pos h

theorem loadProgram_past (m : Memory) {origin : Nat} {bytes : List Byte} (h : 0 < bytes.length)
    (hpast : 0xFFF < origin + bytes.length - 1) : loadProgram m bytes origin = none := by
  rw [loadProgram, lastAddress, if_neg (by omega), if_pos hpast]

theorem loadProgram_inRange (m : Memory) {origin : Nat} {bytes : List Byte} (h : 0 < bytes.length)
    (hin : origin + bytes.length - 1 ≤ 0xFFF) : loadProgram m bytes origin = some (m.storeBytes origin bytes) := by
  rw [loadProgram, lastAddress, if_neg (by omega), if_neg (Nat.not_lt.mpr hin)]

/-- Settles O38: a program that fits is one block store. -/
theorem loadProgramCopiesOrRefuses : Obligations.LoadProgramCopiesOrRefuses := by
  intro s bytes origin hm
  refine ⟨fun h => ?_, fun h hpast => ?_, fun h hin => ?_⟩
  · exact perform_loadProgram_some s bytes origin s.mem (loadProgram_empty s.mem origin h)
  · exact perform_loadProgram_none s bytes origin (loadProgram_past s.mem h hpast)
  · refine ⟨_, perform_loadProgram_some s bytes origin _ (loadProgram_inRange s.mem h hin), fun j hj => ?_,
      fun a ha => s.mem.read_storeBytes_outside origin a bytes ha, s.setMem_unchangedBut _⟩
    exact Memory.read_storeBytes_inside hm origin bytes (by rw [lastAddress]; omega) j hj

theorem perform_hostReadByte (s : State) (addr : Nat) :
    perform (.hostReadByte addr) s =
      .next (if addr ≤ 0xFFF then .byte (s.mem.read addr) else .addressError addr, s) := by
  simp only [perform, performRead, readByte_eq]
  by_cases h : addr ≤ 0xFFF
  · simp only [if_pos h]
  · simp only [if_neg h]

theorem perform_hostWriteByte (s : State) (addr value : Nat) :
    perform (.hostWriteByte addr value) s =
      .next (if addr ≤ 0xFFF then (.ok, s.setMem (s.mem.write addr (BitVec.ofNat 8 value)))
        else (.addressError addr, s)) := by
  simp only [perform, performWrite, writeByte_eq]
  by_cases h : addr ≤ 0xFFF
  · simp only [if_pos h]
  · simp only [if_neg h]

/-- Settles O39, from what the two host accesses answer. -/
theorem hostByteAccessReadsAndWritesOneByte : Obligations.HostByteAccessReadsAndWritesOneByte := by
  intro s addr value hm
  rw [perform_hostReadByte, perform_hostWriteByte]
  refine ⟨fun hin => ?_, fun hpast => ?_⟩
  · rw [if_pos hin, if_pos hin]
    refine ⟨rfl, _, rfl, ?_, fun a ha => s.mem.read_write_other addr a _ ha, s.setMem_unchangedBut _⟩
    rw [State.setMem_mem, Memory.read_write_same hm, BitVec.toNat_ofNat]
  · rw [if_neg (by omega), if_neg (by omega)]
    exact ⟨rfl, rfl⟩

/-! ### The writers of memory -/

theorem ldB_or_ldMemVx_of_mem_mem_writtenParts {c : Config} {i : Instr} (h : .mem ∈ writtenParts c i) :
    (∃ x, i = .ldB x) ∨ ∃ x, i = .ldMemVx x := by
  cases i <;> simp_all [writtenParts]

/-- A byte that a block store changes lies in the block. -/
theorem Memory.inside_of_read_storeBytes_ne {m : Memory} {addr a : Nat} {bs : List Byte}
    (h : (m.storeBytes addr bs).read a ≠ m.read a) : addr ≤ a ∧ a < addr + bs.length := by
  by_contra hout
  exact h (m.read_storeBytes_outside addr a bs (by omega))

/-- Settles O46: only two instructions have memory in their frame, and each stores one block. -/
theorem memoryChangesOnlyUnderItsWriters : Obligations.MemoryChangesOnlyUnderItsWriters := by
  intro i s t a h ha
  have hwriter : Part.mem ∈ writtenParts s.cfg i := mem_writtenParts h (by decide) fun hsame => ha (hsame a)
  obtain ⟨x, rfl⟩ | ⟨x, rfl⟩ := ldB_or_ldMemVx_of_mem_mem_writtenParts hwriter
  · rw [exec_ldB] at h
    split at h
    · cases h; exact absurd rfl ha
    · cases h
      obtain ⟨hlo, hhi⟩ := Memory.inside_of_read_storeBytes_ne ha
      rw [length_bcdDigits] at hhi
      exact ⟨hlo, by omega⟩
  · rw [exec_ldMemVx] at h
    split at h
    · cases h; exact absurd rfl ha
    · cases h
      rw [State.advance_mem, State.blockAdvanceI_mem, State.setMem_mem] at ha
      obtain ⟨hlo, hhi⟩ := Memory.inside_of_read_storeBytes_ne ha
      rw [length_blockRegs] at hhi
      exact ⟨hlo, by omega⟩

/-! ### A stored word is fetched -/

/-- A big-endian word as a number (R52, R58). -/
theorem toNat_wordOfBytes (hi lo : Byte) : (wordOfBytes hi lo).toNat = hi.toNat * 256 + lo.toNat := by
  have hhi := hi.isLt
  have hlo := lo.isLt
  have hshift : hi.toNat <<< 8 = hi.toNat * 256 := Nat.shiftLeft_eq hi.toNat 8
  simp only [wordOfBytes, BitVec.toNat_or, BitVec.toNat_shiftLeft, BitVec.toNat_setWidth]
  rw [Nat.mod_eq_of_lt (a := hi.toNat) (by omega), Nat.mod_eq_of_lt (a := lo.toNat) (by omega),
    Nat.mod_eq_of_lt (by omega), ← Nat.shiftLeft_add_eq_or_of_lt hlo, hshift]

/-- At an even PC in range the fetch is the word at PC, in every configuration (R101). -/
theorem fetch_even {s : State} (heven : s.pc.toNat % 2 = 0) (hin : s.pc.toNat + 1 ≤ 0xFFF) :
    fetch s = .ok (wordOfBytes (s.mem.read s.pc.toNat) (s.mem.read (s.pc.toNat + 1))) := by
  rw [fetch_eq s (by omega), if_pos hin]

theorem decodeWord_encode_ldMemVx (x : Nib) : decodeWord (encode (.ldMemVx x)) = .ok (.ldMemVx x) := by
  simp [decodeWord, decodeMisc, encode]

/-- From Idle a step runs the instruction it fetches (R100). -/
theorem step_eq_exec {s : State} {w : Word} {i : Instr} (hes : s.es = .idle) (hw : fetch s = .ok w)
    (hd : decodeWord w = .ok i) : step s = exec i s := by
  simp only [step_idle s hes, stepIdle, hw, hd]

/-- A block in range is stored, and PC moves to the next word (R187). -/
theorem exec_ldMemVx_inRange {s : State} {x : Nib} (h : s.i.toNat + x.toNat ≤ 0xFFF) :
    ∃ t, exec (.ldMemVx x) s = .next t ∧ t.pc = s.pc + 2#16 ∧
      t.mem = s.mem.storeBytes s.i.toNat (blockRegs s x) := by
  rw [exec_ldMemVx, (rangeError_eq_none s.i.toNat (x.toNat + 1)).mpr h]
  exact ⟨_, rfl, by simp, by simp⟩

/-- After a block in range is stored, the byte at `I + j` is `V[j]` (R187). -/
theorem read_storeBytes_blockRegs {s : State} (hm : s.mem.wf = true) {x j : Nib}
    (h : s.i.toNat + x.toNat ≤ 0xFFF) (hj : j.toNat ≤ x.toNat) :
    (s.mem.storeBytes s.i.toNat (blockRegs s x)).read (s.i.toNat + j.toNat) = s.getV j := by
  have hlen := length_blockRegs s x
  rw [Memory.read_storeBytes_inside hm _ _ (by rw [hlen, lastAddress]; omega) j.toNat (by omega),
    getElem_blockRegs s x j.toNat _ j.isLt, State.getV]

/-- Settles O49: the store puts `V[0]` and `V[1]` at the two bytes the next fetch reads. -/
theorem storedWordIsFetchedByTheNextStep : Obligations.StoredWordIsFetchedByTheNextStep := by
  intro s x hes hm heven hpc hfetch hx hi hblock
  obtain ⟨t, hexec, htpc, htmem⟩ := exec_ldMemVx_inRange hblock
  have hnext : t.pc.toNat = s.i.toNat := by
    rw [htpc, BitVec.toNat_add, BitVec.toNat_ofNat]
    omega
  have hv0 : t.mem.read t.pc.toNat = s.getV 0x0#4 := by
    rw [htmem, hnext]
    exact read_storeBytes_blockRegs (j := 0x0#4) hm hblock (Nat.zero_le _)
  have hv1 : t.mem.read (t.pc.toNat + 1) = s.getV 0x1#4 := by
    rw [htmem, hnext]
    exact read_storeBytes_blockRegs (j := 0x1#4) hm hblock hx
  refine ⟨t, _, (step_eq_exec hes hfetch (decodeWord_encode_ldMemVx x)).trans hexec, hnext.trans hi,
    fetch_even (by omega) (by omega), ?_⟩
  rw [toNat_wordOfBytes, hv0, hv1]

end Sys2Proof.Machine
end

section
/-! PROOFS of the encoding family. The decoder undoes the encoder; and what decoding a word can answer, said once, class
by class of R85: the instruction whose word it is, or the error of a word the table of R86 lists. -/

namespace Sys2Proof

open Sys2Proof.Machine Sys2Proof.Claims

/-! ### The decoder undoes the encoder -/

/-- Each format's fields read back (R81, R83) take the branch of R85 that the instruction's constants select. -/
@[simp] theorem decodeWord_encode (i : Instr) : decodeWord (encode i) = .ok i := by
  cases i with
  | cls | ret => rfl
  | jp | call | ldI | jpV0 => simp [encode, decodeWord]
  | seImm | sneImm | ldImm | addImm | rnd => simp [encode, decodeWord]
  | seReg | sneReg | drw => simp [encode, decodeWord]
  | ldReg | orReg | andReg | xorReg | addReg | sub | shr | subn | shl => simp [encode, decodeWord, decodeAlu]
  | skp | sknp => simp [encode, decodeWord, decodeKey]
  | ldVxDt | ldVxK | ldDtVx | ldStVx | addI | ldF | ldB | ldMemVx | ldVxMem => simp [encode, decodeWord, decodeMisc]

/-- Settles O1: the bytes of a word decode as the word, and the decoder undoes the encoder. -/
theorem decodeOfEncodeGivesTheInstruction : Obligations.DecodeOfEncodeGivesTheInstruction := by
  intro i rest
  rw [encodeBytes, decode_bytesOfWord, decodeWord_encode]

/-- Settles O4: nine of the words are the encodings of their instructions, so O1 decodes them; the tenth decodes to the
error by evaluation. -/
theorem writtenOutWordsDecode : Obligations.WrittenOutWordsDecode := by
  have decodes := decodeOfEncodeGivesTheInstruction
  exact ⟨decodes .cls [], decodes (.call 0x345#12) [], decodes (.sneReg 0xA#4 0xB#4) [],
    decodes (.addReg 0xA#4 0xB#4) [], decodes (.shl 0xC#4 0xA#4) [], decodes (.jpV0 0x300#12) [],
    decodes (.drw 0x0#4 0x1#4 0x5#4) [], decodes (.sknp 0x2#4) [], decodes (.ldMemVx 0x2#4) [], rfl⟩

/-! ### The table of R86 by classes -/

/-- The classes in which every word is an instruction (R84) have no pattern in R86. -/
theorem illegalWord_of_fullClass {w : Word}
    (h : fieldOp w ∈ [0x1#4, 0x2#4, 0x3#4, 0x4#4, 0x6#4, 0x7#4, 0xA#4, 0xB#4, 0xC#4, 0xD#4]) :
    illegalWord w = false := by
  simp only [illegalWord, ← toNat_fieldOp]
  generalize fieldOp w = op at h
  fin_cases h <;> rfl

/-! The other classes are illegal by `n`, by `kk` or, in class 0, by the whole word. -/

theorem illegalWord_of_class0 {w : Word} (h : fieldOp w = 0x0#4) :
    illegalWord w = !(w == 0x00E0#16 || w == 0x00EE#16) := by
  simp [illegalWord, ← toNat_fieldOp, h]

theorem illegalWord_of_class5_or_class9 {w : Word} (h : fieldOp w = 0x5#4 ∨ fieldOp w = 0x9#4) :
    illegalWord w = ((fieldN w).toNat != 0) := by
  obtain h | h := h <;> simp [illegalWord, ← toNat_fieldOp, ← toNat_fieldN, h]

theorem illegalWord_of_class8 {w : Word} (h : fieldOp w = 0x8#4) :
    illegalWord w = [0x8, 0x9, 0xA, 0xB, 0xC, 0xD, 0xF].contains (fieldN w).toNat := by
  simp [illegalWord, ← toNat_fieldOp, ← toNat_fieldN, h]

theorem illegalWord_of_classE {w : Word} (h : fieldOp w = 0xE#4) :
    illegalWord w = !([0x9E, 0xA1].contains (fieldKK w).toNat) := by
  simp [illegalWord, ← toNat_fieldOp, ← toNat_fieldKK, h]

theorem illegalWord_of_classF {w : Word} (h : fieldOp w = 0xF#4) :
    illegalWord w = !([0x07, 0x0A, 0x15, 0x18, 0x1E, 0x29, 0x33, 0x55, 0x65].contains (fieldKK w).toNat) := by
  simp [illegalWord, ← toNat_fieldOp, ← toNat_fieldKK, h]

/-! ### What decoding a word can answer -/

/-- What `decode(w)` can answer (R85, R88): the instruction whose word is `w`, or the error of an illegal word. -/
inductive DecodeAnswer (w : Word) : Except DecodeError Instr → Prop where
  | instr {i : Instr} (word : encode i = w) (legal : illegalWord w = false) : DecodeAnswer w (.ok i)
  | unknown (illegal : illegalWord w = true) : DecodeAnswer w (.error (.unknown w))

/-- Class 0 holds two instructions, each a single word. -/
theorem decodeAnswer_class0 {w : Word} (hop : fieldOp w = 0x0#4) :
    DecodeAnswer w (if w = 0x00E0#16 then .ok .cls else if w = 0x00EE#16 then .ok .ret else .error (.unknown w)) := by
  have hill := illegalWord_of_class0 hop
  split_ifs with hcls hret
  · exact .instr hcls.symm (by rw [hill, hcls]; rfl)
  · exact .instr hret.symm (by rw [hill, hret]; rfl)
  · exact .unknown (by simp [hill, hcls, hret])

/-- Classes 5 and 9 are instructions where `n` is 0. -/
theorem decodeAnswer_class5_or_class9 {w : Word} {i : Instr} (hop : fieldOp w = 0x5#4 ∨ fieldOp w = 0x9#4)
    (hi : encode i = formatXyn (fieldOp w) (fieldX w) (fieldY w) 0x0#4) :
    DecodeAnswer w (if fieldN w = 0x0#4 then .ok i else .error (.unknown w)) := by
  have hill := illegalWord_of_class5_or_class9 hop
  split
  next hn => exact .instr (by rw [hi, ← hn, formatXyn_fields]) (by rw [hill, hn]; rfl)
  next hn => exact .unknown (by rw [hill, bne_iff_ne]; exact fun h => hn (BitVec.eq_of_toNat_eq h))

/-- Class 8 holds an instruction for every `n` but seven. -/
theorem decodeAnswer_decodeAlu {w : Word} (hop : fieldOp w = 0x8#4) :
    DecodeAnswer w (decodeAlu w (fieldX w) (fieldY w)) := by
  have hill := illegalWord_of_class8 hop
  have hword : formatXyn 0x8#4 (fieldX w) (fieldY w) (fieldN w) = w := hop ▸ formatXyn_fields w
  unfold decodeAlu
  generalize fieldN w = n at hill hword ⊢
  induction n using nib_cases with
  | h8 | h9 | hA | hB | hC | hD | hF => exact .unknown hill
  | _ => exact .instr hword hill

/-- Class E holds an instruction for two values of `kk`. -/
theorem decodeAnswer_decodeKey {w : Word} (hop : fieldOp w = 0xE#4) : DecodeAnswer w (decodeKey w (fieldX w)) := by
  have hill := illegalWord_of_classE hop
  have hword : formatXkk 0xE#4 (fieldX w) (fieldKK w) = w := hop ▸ formatXkk_fields w
  unfold decodeKey
  split
  case h_1 hkk | h_2 hkk =>
    rw [hkk] at hword hill
    exact .instr hword hill
  case h_3 h9E hA1 => exact .unknown (by simpa [hill, byte_toNat_eq] using ⟨h9E, hA1⟩)

/-- Class F holds an instruction for nine values of `kk`. -/
theorem decodeAnswer_decodeMisc {w : Word} (hop : fieldOp w = 0xF#4) : DecodeAnswer w (decodeMisc w (fieldX w)) := by
  have hill := illegalWord_of_classF hop
  have hword : formatXkk 0xF#4 (fieldX w) (fieldKK w) = w := hop ▸ formatXkk_fields w
  unfold decodeMisc
  split
  case h_1 hkk | h_2 hkk | h_3 hkk | h_4 hkk | h_5 hkk | h_6 hkk | h_7 hkk | h_8 hkk | h_9 hkk =>
    rw [hkk] at hword hill
    exact .instr hword hill
  case h_10 => exact .unknown (by simp_all [byte_toNat_eq])

/-- Decoding any word, by its class. -/
theorem decodeAnswer_decodeWord (w : Word) : DecodeAnswer w (decodeWord w) := by
  have hnnn := formatNnn_fields w
  have hxkk := formatXkk_fields w
  have hxyn := formatXyn_fields w
  unfold decodeWord
  generalize hop : fieldOp w = op at hnnn hxkk hxyn ⊢
  induction op using nib_cases with
  | h0 => exact decodeAnswer_class0 hop
  | h1 | h2 | hA | hB => exact .instr hnnn (illegalWord_of_fullClass (by simp [hop]))
  | h3 | h4 | h6 | h7 | hC => exact .instr hxkk (illegalWord_of_fullClass (by simp [hop]))
  | hD => exact .instr hxyn (illegalWord_of_fullClass (by simp [hop]))
  | h5 => exact decodeAnswer_class5_or_class9 (.inl hop) (by rw [hop]; rfl)
  | h9 => exact decodeAnswer_class5_or_class9 (.inr hop) (by rw [hop]; rfl)
  | h8 => exact decodeAnswer_decodeAlu hop
  | hE => exact decodeAnswer_decodeKey hop
  | hF => exact decodeAnswer_decodeMisc hop

/-! ### The statements about words -/

/-- Settles O2: a decoded instruction is one whose word is `w`. -/
theorem encodeOfDecodedWordIsTheWord : Obligations.EncodeOfDecodedWordIsTheWord := by
  intro w i h
  have hw := decodeAnswer_decodeWord w
  rw [h] at hw
  cases hw with
  | instr word => exact word

theorem decodeWord_of_illegal {w : Word} (h : illegalWord w = true) : decodeWord w = .error (.unknown w) := by
  have hw := decodeAnswer_decodeWord w
  generalize decodeWord w = r at hw ⊢
  cases hw with
  | instr _ legal => cases h.symm.trans legal
  | unknown => rfl

/-- Settles O3: an illegal word is not the word of an instruction, and only an illegal word is rejected. -/
theorem decodeRejectsExactlyTheIllegalPatterns : Obligations.DecodeRejectsExactlyTheIllegalPatterns := by
  intro w
  refine ⟨decodeWord_of_illegal, fun h => ?_⟩
  have hw := decodeAnswer_decodeWord w
  generalize decodeWord w = r at hw ⊢
  cases hw with
  | instr => exact ⟨_, rfl⟩
  | unknown illegal => cases h.symm.trans illegal

/-- Settles O7: the fetched word decodes to nothing, so the step raises (R102). -/
theorem illegalWordHaltsWithUnknownOpcode : Obligations.IllegalWordHaltsWithUnknownOpcode := by
  intro s w hes hw hill
  simp only [step_idle s hes, stepIdle, hw, decodeWord_of_illegal hill]
  rfl

end Sys2Proof
end

section
/-! PROOFS of the execution cycle family. What the fetch answers and what a step makes of it; which host operations
touch ES while the core is held; where an instruction that commits leaves PC; and the port calls of one instruction,
with the plots of a sprite read off as the loop of R170. -/

namespace Sys2Proof.Machine

open Sys2Proof.Claims

/-! ### Fetch and step -/

/-- The premise of `fetch_eq` as the statements write it: an even PC where `ODD_PC_FETCH = fault` (R101). -/
theorem fetch_eq_of_even {s : State} (heven : s.cfg.oddPcFetch = .fault → s.pc.toNat % 2 = 0) :
    fetch s = if s.pc.toNat + 1 ≤ 0xFFF
      then .ok (wordOfBytes (s.mem.read s.pc.toNat) (s.mem.read (s.pc.toNat + 1)))
      else .error (max s.pc.toNat 0x1000) :=
  fetch_eq s fun ⟨hfault, hodd⟩ => by simp [heven hfault] at hodd

theorem fetch_inRange {s : State} (heven : s.cfg.oddPcFetch = .fault → s.pc.toNat % 2 = 0)
    (hpc : s.pc.toNat ≤ 0xFFE) :
    fetch s = .ok (wordOfBytes (s.mem.read s.pc.toNat) (s.mem.read (s.pc.toNat + 1))) := by
  rw [fetch_eq_of_even heven, if_pos (by omega)]

theorem fetch_past {s : State} (heven : s.cfg.oddPcFetch = .fault → s.pc.toNat % 2 = 0)
    (hpc : 0xFFE < s.pc.toNat) : fetch s = .error (max s.pc.toNat 0x1000) := by
  rw [fetch_eq_of_even heven, if_neg (by omega)]

/-- A fetch error halts an Idle core and changes nothing else (R101). -/
theorem step_eq_halt_of_fetch_error {s : State} {a : Nat} (hes : s.es = .idle) (hf : fetch s = .error a) :
    step s = .next (haltOf .addressError a s) := by
  simp only [step_idle s hes, stepIdle, hf]
  rfl

/-- Two bytes decode to the instruction of their word (R80). -/
theorem decode_pair_eq_ok (hi lo : Byte) (i : Instr) :
    decode [hi, lo] = .ok (i, []) ↔ decodeWord (wordOfBytes hi lo) = .ok i := by
  cases h : decodeWord (wordOfBytes hi lo) <;> simp [decode, h]

/-- Settles O5: the fetch gives the word of the two bytes, and the step runs what it decodes to. -/
theorem stepRunsTheDecodedInstruction : Obligations.StepRunsTheDecodedInstruction := by
  intro s i hes hpc heven hd
  exact step_eq_exec hes (fetch_inRange heven hpc) ((decode_pair_eq_ok _ _ i).mp hd)

/-- Settles O6, by the three ends of the fetch. -/
theorem fetchReadsBigEndianWordOrRaises : Obligations.FetchReadsBigEndianWordOrRaises := by
  intro s
  refine ⟨fun heven hpc => ⟨_, fetch_inRange heven hpc, toNat_wordOfBytes _ _⟩, fun hfault hodd => ?_,
    fun heven hpc => ?_⟩
  · have hf := fetch_odd s ⟨hfault, hodd⟩
    exact ⟨hf, fun hes => step_eq_halt_of_fetch_error hes hf⟩
  · have hf := fetch_past heven hpc
    exact ⟨hf, fun hes => step_eq_halt_of_fetch_error hes hf⟩

theorem toNat_addrAsWord (nnn : Addr) : (addrAsWord nnn).toNat = nnn.toNat :=
  BitVec.toNat_setWidth_of_le (by decide)

/-- Settles O50: the step is the jump it fetched, which writes to PC what PC holds. -/
theorem selfJumpChangesNothing : Obligations.SelfJumpChangesNothing := by
  intro s nnn hes hf hnnn
  have hpc : addrAsWord nnn = s.pc := BitVec.eq_of_toNat_eq ((toNat_addrAsWord nnn).trans hnnn)
  rw [step_eq_exec hes hf (decodeWord_encode (.jp nnn)), exec_jp, hpc]
  rfl

/-! ### A held core -/

/-- While the core is Halted or AwaitingKey, only three host operations can change ES (R108, R205). -/
theorem perform_es_of_held {op : HostOp} {s t : State} {r : HostReply} (hes : s.es ≠ .idle)
    (h : perform op s = .next (r, t)) :
    t.es = s.es ∨ op = .reset ∨ (∃ k, op = .resumeKey k) ∨ op = .skipAndContinue := by
  cases op with
  | reset => exact .inr (.inl rfl)
  | resumeKey k => exact .inr (.inr (.inl ⟨k, rfl⟩))
  | skipAndContinue => exact .inr (.inr (.inr rfl))
  | tickTimers | observe => cases h; exact .inl rfl
  | hostReadByte addr => rw [perform_hostReadByte] at h; cases h; exact .inl rfl
  | hostWriteByte addr value =>
    rw [perform_hostWriteByte] at h
    split at h
    · cases h; exact .inl rfl
    · cases h; exact .inl rfl
  | loadProgram bytes origin =>
    cases hm : loadProgram s.mem bytes origin with
    | none => rw [perform_loadProgram_none s bytes origin hm] at h; cases h; exact .inl rfl
    | some m => rw [perform_loadProgram_some s bytes origin m hm] at h; cases h; exact .inl rfl
  | step =>
    have hstep := perform_step_eq_next h
    cases hs : s.es with
    | idle => exact absurd hs hes
    | halted e info => rw [step_halted s e info hs] at hstep; cases hstep; exact .inl hs
    | awaitingKey x => rw [step_awaiting s x hs] at hstep; cases hstep; exact .inl hs

theorem perform_skipAndContinue_awaiting {s : State} {x : Nib} (hes : s.es = .awaitingKey x) :
    perform .skipAndContinue s = .next (.notHalted, s) := by
  simp [perform, performSkip, skipAndContinue_other, hes]

/-- Settles O8: of the operations that can change ES while the core is held, `skip_and_continue` does not where it
waits. -/
theorem keyWaitIsLeftOnlyByResumeOrReset : Obligations.KeyWaitIsLeftOnlyByResumeOrReset := by
  intro s x hes
  have hstep := step_awaiting s x hes
  refine ⟨hstep, by rw [perform_step_next s s hstep, stepReply, hes], fun op r t h ht => ?_⟩
  obtain hsame | hreset | hresume | rfl := perform_es_of_held (by simp [hes]) h
  · exact absurd (hsame.trans hes) ht
  · exact .inl hreset
  · exact .inr hresume
  · rw [perform_skipAndContinue_awaiting hes] at h
    cases h
    exact absurd hes ht

/-! ### The PC update -/

/-- The sequential update from a state `u` whose PC is still that of `s` (R104). -/
theorem State.toNat_advance_pc {s u : State} (h : u.pc = s.pc) : u.advance.pc.toNat = (s.pc.toNat + 2) % 65536 := by
  simp [h]

theorem State.toNat_skipIf_pc (s : State) (c : Bool) :
    (s.skipIf c).pc.toNat = (s.pc.toNat + 2) % 65536 ∨ (s.skipIf c).pc.toNat = (s.pc.toNat + 4) % 65536 := by
  cases c <;> simp

theorem State.toNat_logicResult_pc (s : State) (x : Nib) (r : Byte) :
    (s.logicResult x r).pc.toNat = (s.pc.toNat + 2) % 65536 := by
  unfold State.logicResult
  split
  · exact State.toNat_advance_pc rfl
  · exact State.toNat_advance_pc rfl

/-- A 12-bit address plus a byte fits in PC, so the indexed jump does not wrap (R161). -/
theorem toNat_addrAsWord_add_byteAsWord (nnn : Addr) (b : Byte) :
    (addrAsWord nnn + byteAsWord b).toNat = nnn.toNat + b.toNat := by
  have hb : (byteAsWord b).toNat = b.toNat := BitVec.toNat_setWidth_of_le (by decide)
  have hnnn := nnn.isLt
  have hlt := b.isLt
  rw [BitVec.toNat_add, toNat_addrAsWord, hb]
  omega

/-- A return that commits has SP address the entry that PC takes (R121). -/
theorem exec_ret_pc {s t : State} (h : exec .ret s = .next t) (ht : t.es = .idle) :
    s.stack[t.sp.toNat]? = some t.pc := by
  rw [exec_ret] at h
  split at h
  · cases h; cases ht
  · next h0 =>
    split at h
    · next h16 =>
      cases h
      simp only [toNat_sub_one s.sp (Nat.pos_of_ne_zero h0)]
      exact Vector.getElem?_eq_getElem _
    · cases h

/-- Settles O43, by the kinds of R104; where an instruction raised, the core is not Idle. -/
theorem pcMovesByTheKindOfR104 : Obligations.PcMovesByTheKindOfR104 := by
  intro i s t hes h ht
  cases i with
  | cls | ldImm _ _ | addImm _ _ | ldReg _ _ | addReg _ _ | sub _ _ | shr _ _ | subn _ _ | shl _ _ | ldI _ | rnd _ _
  | ldVxDt _ | ldDtVx _ | ldStVx _ | addI _ | ldF _ =>
    cases h
    exact State.toNat_advance_pc rfl
  | orReg x _ | andReg x _ | xorReg x _ =>
    simp only [exec_orReg, exec_andReg, exec_xorReg] at h
    cases h
    exact s.toNat_logicResult_pc x _
  | drw _ _ _ | ldB _ | ldMemVx _ | ldVxMem _ =>
    simp only [exec_drw, exec_ldB, exec_ldMemVx, exec_ldVxMem] at h
    split at h
    · cases h; cases ht
    · cases h; exact State.toNat_advance_pc (by simp)
  | seImm _ _ | sneImm _ _ | seReg _ _ | sneReg _ _ | skp _ | sknp _ =>
    cases h
    exact s.toNat_skipIf_pc _
  | jp nnn => cases h; exact ⟨nnn, .inl rfl, toNat_addrAsWord nnn⟩
  | call nnn =>
    rw [exec_call] at h
    split at h
    · cases h; cases ht
    · split at h
      · cases h; exact ⟨nnn, .inr rfl, toNat_addrAsWord nnn⟩
      · cases h
  | jpV0 nnn => cases h; exact ⟨nnn, rfl, toNat_addrAsWord_add_byteAsWord nnn _⟩
  | ret => exact exec_ret_pc h ht
  | ldVxK _ => cases h; cases ht

/-! ### The plots of R170 -/

/-- A pixel as the arguments of its plot call (R216). -/
def Pixel.args (p : Pixel) : Nat × Nat × Bool := (p.x, p.y, p.on)

/-- The calls of a list of pixels have the pixels as their arguments, in order. -/
theorem map_plotArgs_answeredPlots (k : Nat) (ps : List Pixel) :
    (answeredPlots k ps).map plotArgs = (ps.map Pixel.args).map some := by
  induction ps generalizing k with
  | nil => rfl
  | cons p ps ih => simp only [answeredPlots, List.map_cons, ih]; rfl

/-- The rows a sprite reads are those of R170: row `r` is the byte at `addr + r`. -/
theorem spritePixels_loadBytes (c : Config) (x0 y : Nat) (m : Memory) (addr n : Nat) :
    spritePixels c x0 y (m.loadBytes addr n) =
      (List.range n).flatMap fun r => rowPixels c x0 (y + r) (m.read (addr + r)) := by
  induction n generalizing y addr with
  | zero => rfl
  | succ n ih =>
    simp only [Memory.loadBytes, spritePixels, ih, List.range_succ_eq_map, List.flatMap_cons, List.flatMap_map,
      Nat.add_zero, Nat.succ_eq_add_one, Nat.add_assoc, Nat.add_comm 1]

/-- Where a pixel lands by R170: wrapped, or dropped past the edge. -/
theorem map_args_placePixel (c : Config) (px py : Nat) (on : Bool) :
    (placePixel c px py on).map Pixel.args =
      if c.spriteEdge = .wrap then some (px % c.displayW, py % c.displayH, on)
      else if px ≥ c.displayW ∨ py ≥ c.displayH then none
      else some (px, py, on) := by
  unfold placePixel
  cases c.spriteEdge with
  | wrap => rfl
  | clip =>
    by_cases hpast : px ≥ c.displayW ∨ py ≥ c.displayH
    · simp [hpast]
    · simp [hpast, Pixel.args]

/-- The pixels drawn are the plots of the loop of R170. -/
theorem map_args_drawnPixels (s : State) (x y n : Nib) :
    (drawnPixels s x y n).map Pixel.args = ruleR170Plots s x y n := by
  simp only [drawnPixels, spritePixels_loadBytes, List.map_flatMap, rowPixels, List.map_filterMap,
    map_args_placePixel, ruleR170Plots]

/-! ### The port calls of one instruction -/

/-- A draw that does not halt made the plots of R170. -/
theorem exec_drw_calls {s t : State} {x y n : Nib} (h : exec (.drw x y n) s = .next t)
    (ht : ∀ e info, t.es ≠ .halted e info) :
    ∃ new, t.calls = s.calls ++ new ∧ new.map plotArgs = (ruleR170Plots s x y n).map some := by
  rw [exec_drw] at h
  split at h
  · cases h; exact absurd rfl (ht _ _)
  · cases h
    exact ⟨_, rfl, by rw [map_plotArgs_answeredPlots, map_args_drawnPixels]⟩

/-- From Idle, an instruction that leaves the core halted raised: nothing but ES changed (R203). -/
theorem eq_halt_of_exec_halted {i : Instr} {s t : State} {e : ErrorKind} {info : ErrorInfo} (hes : s.es = .idle)
    (h : exec i s = .next t) (ht : t.es = .halted e info) : ∃ e value, t = s.halt e value := by
  refine (exec_frame h).resolve_right fun hframe => ?_
  have hw : Part.es ∈ writtenParts s.cfg i := by
    by_contra hmem
    cases (ht.symm.trans (hframe .es hmem)).trans hes
  obtain ⟨x, rfl⟩ := ldVxK_of_es_mem_writtenParts hw
  cases h
  cases ht

/-- Settles O47: an instruction that raised changed ES alone; of the others those outside the five rules leave the port
calls out of their frame. -/
theorem portCallsAreThoseOfTheRules : Obligations.PortCallsAreThoseOfTheRules := by
  intro i s t hes h
  refine ⟨fun ⟨e, info, ht⟩ => ?_, fun ht => ?_⟩
  · obtain ⟨e, value, rfl⟩ := eq_halt_of_exec_halted hes h ht
    rfl
  · have hframe := (exec_frame h).resolve_left (by rintro ⟨e, value, rfl⟩; exact ht _ _ rfl)
    cases i with
    | cls => cases h; exact ⟨_, rfl, rfl⟩
    | rnd _ _ | skp _ | sknp _ => cases h; exact ⟨_, rfl, _, rfl⟩
    | drw x y n => exact exec_drw_calls h ht
    | _ =>
      have hcalls : t.calls = s.calls := hframe .calls (by simp [writtenParts])
      exact ⟨[], by rw [hcalls, List.append_nil], rfl⟩

end Sys2Proof.Machine
end

section
/-! PROOFS of the control flow family. Each word a rule writes is by definition the encoding of its instruction, so the
decoder undoes it; target, depth and frame are read off the state that each instruction answers. -/

namespace Sys2Proof.Machine

open Sys2Proof.Claims

/-- Settles O10: the one call is recorded, and the rest is the sequential PC update (R120). -/
theorem clsCallsDisplayClearOnce : Obligations.ClsCallsDisplayClearOnce := by
  refine ⟨decodeWord_encode .cls, fun s => ⟨_, exec_cls s, rfl, State.toNat_advance_pc rfl, ?_⟩⟩
  apply UnchangedBut.of_fields <;> simp

/-- Settles O11: the entry that PC takes is the one SP addresses after the decrement (R28, R121). -/
theorem retPopsOrRaisesUnderflow : Obligations.RetPopsOrRaisesUnderflow := by
  refine ⟨decodeWord_encode .ret, fun s => ⟨fun h0 => ?_, fun h1 h16 => ?_⟩⟩
  · rw [exec_ret, if_pos h0]
    rfl
  · have hsp := toNat_sub_one s.sp h1
    refine ⟨_, exec_ret_live s (by omega) h16, hsp, ?_, ?_⟩
    · simp only [hsp]
      exact Vector.getElem?_eq_getElem _
    · apply UnchangedBut.of_fields <;> simp

theorem State.setPc_unchangedBut (s : State) (w : Word) : UnchangedBut [.pc] s (s.setPc w) := by
  apply UnchangedBut.of_fields <;> simp

/-- Settles O12: both jumps write PC alone, and neither target needs more than 16 bits (R122, R161). -/
theorem jumpsSetPc : Obligations.JumpsSetPc := by
  intro nnn
  refine ⟨decodeWord_encode (.jp nnn), decodeWord_encode (.jpV0 nnn), fun s => ⟨?_, ?_⟩⟩
  · exact ⟨_, exec_jp nnn s, toNat_addrAsWord nnn, s.setPc_unchangedBut _⟩
  · exact ⟨_, exec_jpV0 nnn s, toNat_addrAsWord_add_byteAsWord nnn _, s.setPc_unchangedBut _⟩

/-- Settles O13: below 16 live entries SP addresses a free entry, so the push writes that entry alone and the depth does
not wrap (R28, R123). -/
theorem callPushesOrRaisesOverflow : Obligations.CallPushesOrRaisesOverflow := by
  intro nnn
  refine ⟨decodeWord_encode (.call nnn), fun s => ⟨fun h16 => ?_, fun hfree => ?_⟩⟩
  · rw [exec_call, if_pos h16]
    rfl
  · have hdepth : (s.sp + 1#8).toNat = s.sp.toNat + 1 := by
      rw [BitVec.toNat_add, BitVec.toNat_ofNat]
      omega
    refine ⟨_, s.pc + 2#16, exec_call_free nnn s hfree, toNat_addrAsWord nnn, hdepth,
      Vector.getElem?_set_self hfree, BitVec.toNat_add s.pc 2#16, fun j hj => Vector.getElem?_set_ne hfree hj.symm, ?_⟩
    apply UnchangedBut.of_fields <;> simp

end Sys2Proof.Machine
end

section
/-! PROOFS of the skip family. A skip is the model's `skipIf` on the comparison its rule names, so the four rest on one
lemma about `skipIf`; their words are the encodings that the decoder undoes. -/

namespace Sys2Proof.Machine

open Sys2Proof.Claims

/-- The skip PC update from a state `u` whose PC is still that of `s`, on a test `b` that decides `c` (R104). -/
theorem State.toNat_skipIf_pc_of_iff {s u : State} {b : Bool} {c : Prop} [Decidable c] (hpc : u.pc = s.pc)
    (hb : b = true ↔ c) : (u.skipIf b).pc.toNat = (s.pc.toNat + if c then 4 else 2) % 65536 := by
  by_cases hc : c
  · simp [hpc, hb.mpr hc, hc]
  · simp [hpc, mt hb.mp hc, hc]

theorem State.skipIf_skipping (s : State) {b : Bool} {c : Prop} [Decidable c] (hb : b = true ↔ c) :
    Skipping c [] s (s.skipIf b) :=
  ⟨State.toNat_skipIf_pc_of_iff rfl hb, s.setPc_unchangedBut _⟩

/-- A rule writes the constant `n` of a word in its base, the encoder after the fields: it is the same word (R83). -/
theorem decodeWord_wordXy {i : Instr} {base : Word} {op x y n : Nib} (hi : encode i = formatXyn op x y n)
    (hbase : base = op.setWidth 16 <<< 12 ||| n.setWidth 16) : decodeWord (wordXy base x y) = .ok i := by
  have hword : wordXy base x y = encode i := by
    rw [hi, hbase, wordXy, formatXyn]
    ac_rfl
  rw [hword, decodeWord_encode]

/-- Settles O16: each skip answers `skipIf` of its comparison, which writes PC alone (R130 to R133). -/
theorem skipsCompareAndMovePcOnly : Obligations.SkipsCompareAndMovePcOnly := by
  intro x y kk
  refine ⟨decodeWord_encode (.seImm x kk), decodeWord_encode (.sneImm x kk), decodeWord_wordXy rfl rfl,
    decodeWord_wordXy rfl rfl, fun s => ⟨?_, ?_, ?_, ?_⟩⟩
  · exact ⟨_, exec_seImm x kk s, s.skipIf_skipping beq_iff_eq⟩
  · exact ⟨_, exec_sneImm x kk s, s.skipIf_skipping bne_iff_ne⟩
  · exact ⟨_, exec_seReg x y s, s.skipIf_skipping beq_iff_eq⟩
  · exact ⟨_, exec_sneReg x y s, s.skipIf_skipping bne_iff_ne⟩

end Sys2Proof.Machine
end

section
/-! PROOFS of the ALU family. Every ALU instruction ends in one register write or in a result and then a flag, so the
frames of both ends are proved once; the rest is the arithmetic of the results and of the flags, as natural numbers. -/

namespace Sys2Proof.Machine

open Sys2Proof.Claims

/-! ### The two ends of an ALU instruction -/

theorem State.setV_advance_writesReg (s : State) (x : Nib) (r : Byte) :
    WritesReg x r.toNat s (s.setV x r).advance := by
  refine ⟨by simp, fun j hj => ?_, State.toNat_advance_pc rfl, ?_⟩
  · rw [State.advance_getV, State.getV_setV_other s x j r (by simpa using hj)]
  · apply UnchangedBut.of_fields <;> simp

/-- The flag is the later write, so VF holds it whatever `x` is (R106). -/
theorem State.setV_setVF_advance_writesRegThenFlag (s : State) (x : Nib) (r f : Byte) :
    WritesRegThenFlag x r.toNat f.toNat s ((s.setV x r).setVF f).advance := by
  refine ⟨?_, fun hx => ?_, fun j hj => ?_, State.toNat_advance_pc rfl, ?_⟩
  · simp [State.getV_setVF]
  · simp [State.getV_setVF, hx]
  · obtain ⟨hjx, hjF⟩ : j ≠ x ∧ j ≠ 0xF#4 := by simpa using hj
    simp [State.getV_setVF, hjx, hjF]
  · apply UnchangedBut.of_fields <;> simp

theorem State.logicResult_writesReg {s : State} (h : s.cfg.logicResetsVf = false) (x : Nib) (r : Byte) :
    WritesReg x r.toNat s (s.logicResult x r) := by
  rw [State.logicResult, h]
  exact s.setV_advance_writesReg x r

theorem State.logicResult_writesRegThenFlag {s : State} (h : s.cfg.logicResetsVf = true) (x : Nib) (r : Byte) :
    WritesRegThenFlag x r.toNat 0 s (s.logicResult x r) := by
  rw [State.logicResult, h]
  exact s.setV_setVF_advance_writesRegThenFlag x r 0#8

/-! ### Flags and operands as natural numbers -/

theorem toNat_flagByte (c : Bool) : (flagByte c).toNat = c.toNat := by
  cases c <;> rfl

theorem toNat_flagByte_decide (p : Prop) [Decidable p] : (flagByte (decide p)).toNat = if p then 1 else 0 := by
  rw [toNat_flagByte, Bool.toNat, Bool.cond_decide]

theorem toNat_sub_eq_emod (a b : Byte) : (a - b).toNat = (((a.toNat : Int) - b.toNat) % 256).toNat := by
  have ha := a.isLt
  have hb := b.isLt
  rw [BitVec.toNat_sub]
  omega

theorem toNat_shiftedOutRight (b : Byte) : (shiftedOutRight b).toNat = b.toNat % 2 := by
  rw [shiftedOutRight, toNat_flagByte, BitVec.getLsbD, Nat.toNat_testBit, Nat.pow_zero, Nat.div_one]

/-- Bit 7 is the topmost of a byte, so nothing is left above it (R150). -/
theorem toNat_shiftedOutLeft (b : Byte) : (shiftedOutLeft b).toNat = b.toNat / 128 := by
  have hb := b.isLt
  rw [shiftedOutLeft, toNat_flagByte, BitVec.getLsbD, Nat.toNat_testBit]
  omega

theorem toNat_shiftOperand (s : State) (x y : Nib) :
    (shiftOperand s x y).toNat = if s.cfg.shiftSource = .vy then (s.getV y).toNat else (s.getV x).toNat := by
  unfold shiftOperand
  cases s.cfg.shiftSource <;> rfl

/-! ### The statements about the ALU -/

/-- Settles O17: each answers one register write, of a value whose number the rule gives (R140 to R142). -/
theorem setAddImmediateAndAssignWriteOneRegister : Obligations.SetAddImmediateAndAssignWriteOneRegister := by
  intro x y kk
  refine ⟨decodeWord_encode (.ldImm x kk), decodeWord_encode (.addImm x kk), decodeWord_wordXy rfl rfl,
    fun s => ⟨?_, ?_, ?_⟩⟩
  · exact ⟨_, exec_ldImm x kk s, s.setV_advance_writesReg x kk⟩
  · rw [← BitVec.toNat_add]
    exact ⟨_, exec_addImm x kk s, s.setV_advance_writesReg x _⟩
  · exact ⟨_, exec_ldReg x y s, s.setV_advance_writesReg x _⟩

/-- Settles O18: the three answer `logicResult`, which ends as `LOGIC_RESETS_VF` says (R143 to R145). -/
theorem logicOperationsAndTheirFlagReset : Obligations.LogicOperationsAndTheirFlagReset := by
  intro x y
  refine ⟨decodeWord_wordXy rfl rfl, decodeWord_wordXy rfl rfl, decodeWord_wordXy rfl rfl, fun s => ?_⟩
  simp only [← BitVec.toNat_or, ← BitVec.toNat_and, ← BitVec.toNat_xor]
  refine ⟨_, _, _, exec_orReg x y s, exec_andReg x y s, exec_xorReg x y s, fun keeps => ?_, fun resets => ?_⟩
  · have writes := State.logicResult_writesReg keeps x
    exact ⟨writes _, writes _, writes _⟩
  · have writes := State.logicResult_writesRegThenFlag resets x
    exact ⟨writes _, writes _, writes _⟩

/-- Settles O19: a byte sum is the sum modulo 256, and the flag is the comparison of the unbounded sum (R146). -/
theorem addWritesSumThenCarry : Obligations.AddWritesSumThenCarry := by
  refine fun x y => ⟨decodeWord_wordXy rfl rfl, fun s => ⟨_, exec_addReg x y s, ?_⟩⟩
  rw [← BitVec.toNat_add, ← toNat_flagByte_decide]
  exact s.setV_setVF_advance_writesRegThenFlag x _ _

/-- Settles O20: SUBN is SUB with its operands exchanged, so one rule about byte differences serves both (R147, R149). -/
theorem subtractionsWriteDifferenceThenNotBorrow : Obligations.SubtractionsWriteDifferenceThenNotBorrow := by
  refine fun x y => ⟨decodeWord_wordXy rfl rfl, decodeWord_wordXy rfl rfl, fun s => ?_⟩
  simp only [← toNat_sub_eq_emod, ← toNat_flagByte_decide]
  exact ⟨⟨_, exec_sub x y s, s.setV_setVF_advance_writesRegThenFlag x _ _⟩,
    ⟨_, exec_subn x y s, s.setV_setVF_advance_writesRegThenFlag x _ _⟩⟩

/-- Settles O21: on the operand that `SHIFT_SOURCE` selects, the result and the bit shifted out are a quotient and a
remainder (R148, R150). -/
theorem shiftsWriteResultThenShiftedOutBit : Obligations.ShiftsWriteResultThenShiftedOutBit := by
  refine fun x y => ⟨decodeWord_wordXy rfl rfl, decodeWord_wordXy rfl rfl, fun s => ?_⟩
  have right : (shiftOperand s x y >>> 1).toNat = (shiftOperand s x y).toNat / 2 := by
    rw [BitVec.toNat_ushiftRight, Nat.shiftRight_one]
  have left : (shiftOperand s x y <<< 1).toNat = (shiftOperand s x y).toNat * 2 % 256 := by
    rw [BitVec.toNat_shiftLeft, Nat.shiftLeft_eq]
  simp only [← toNat_shiftOperand, ← right, ← left, ← toNat_shiftedOutRight, ← toNat_shiftedOutLeft]
  exact ⟨⟨_, exec_shr x y s, s.setV_setVF_advance_writesRegThenFlag x _ _⟩,
    ⟨_, exec_shl x y s, s.setV_setVF_advance_writesRegThenFlag x _ _⟩⟩

end Sys2Proof.Machine
end

section
/-! PROOFS of the index and random family. The three index instructions are one masked write of I, whose value and frame
are proved once; RND is a register write on the state that recorded its one call. -/

namespace Sys2Proof.Machine

open Sys2Proof.Claims

/-! ### Words and operands -/

/-- As `decodeWord_wordXy`, for a word whose constant is the low byte `kk` (R83). -/
theorem decodeWord_wordX {i : Instr} {base : Word} {op x : Nib} {kk : Byte} (hi : encode i = formatXkk op x kk)
    (hbase : base = op.setWidth 16 <<< 12 ||| kk.setWidth 16) : decodeWord (wordX base x) = .ok i := by
  have hword : wordX base x = encode i := by
    rw [hi, hbase, wordX, formatXkk]
    ac_rfl
  rw [hword, decodeWord_encode]

theorem toNat_lowNibble (b : Byte) : (lowNibble b).toNat = b.toNat % 16 :=
  BitVec.toNat_setWidth 4 b

theorem toNat_byteAsWord (b : Byte) : (byteAsWord b).toNat = b.toNat :=
  BitVec.toNat_setWidth_of_le (by decide)

/-- The offset `5 * d` of a glyph is small, so only the sum can wrap in 16 bits (R57, R185). -/
theorem toNat_glyphAddress (c : Config) (d : Nib) :
    (glyphAddress c d).toNat = (c.fontBase.toNat + 5 * d.toNat) % 65536 := by
  have hd : (d.setWidth 16).toNat = d.toNat := BitVec.toNat_setWidth_of_le (by decide)
  rw [glyphAddress, BitVec.toNat_add, BitVec.toNat_mul, hd, Nat.add_mod_mod]
  rfl

/-! ### A write of I -/

/-- A write of I takes the 16-bit value modulo 4096 (R24). -/
theorem State.toNat_setI_i (s : State) (w : Word) : (s.setI w).i.toNat = w.toNat % 4096 :=
  toNat_mask12 w

theorem State.setI_advance_sequential (s : State) (w : Word) : Sequential [.i] s (s.setI w).advance := by
  refine ⟨State.toNat_advance_pc rfl, ?_⟩
  apply UnchangedBut.of_fields <;> simp

/-! ### The statements about I and the random byte -/

/-- Settles O22: the three write I through its mask, which also absorbs the wrap of a 16-bit sum (R160, R184, R185). -/
theorem indexInstructionsWriteIndex : Obligations.IndexInstructionsWriteIndex := by
  refine fun nnn x => ⟨decodeWord_encode (.ldI nnn), decodeWord_wordX rfl rfl, decodeWord_wordX rfl rfl,
    fun s => ⟨?_, ?_, ?_⟩⟩
  · refine ⟨_, exec_ldI nnn s, ?_, s.setI_advance_sequential _⟩
    rw [State.advance_i, State.toNat_setI_i, toNat_addrAsWord]
    exact Nat.mod_eq_of_lt nnn.isLt
  · refine ⟨_, exec_addI x s, ?_, s.setI_advance_sequential _⟩
    rw [State.advance_i, State.toNat_setI_i, BitVec.toNat_add, toNat_byteAsWord]
    omega
  · refine ⟨_, exec_ldF x s, ?_, s.setI_advance_sequential _⟩
    rw [State.advance_i, State.toNat_setI_i, toNat_glyphAddress, toNat_lowNibble]
    omega

/-- Settles O23: the drawn byte is the answer in the one recorded call, and the rest is a register write on the state
with that call (R162). -/
theorem randomByteIsDrawnOnceAndMasked : Obligations.RandomByteIsDrawnOnceAndMasked := by
  refine fun x kk => ⟨decodeWord_encode (.rnd x kk), fun s => ⟨_, _, exec_rnd x kk s, rfl, ?_⟩⟩
  rw [← BitVec.toNat_and]
  obtain ⟨hx, hregs, hpc, -⟩ := State.setV_advance_writesReg
    (s.record (.randomByte (Config.randomByte s.calls.length))) x (Config.randomByte s.calls.length &&& kk)
  refine ⟨hx, hregs, hpc, ?_⟩
  apply UnchangedBut.of_fields <;> simp

end Sys2Proof.Machine
end

section
/-! PROOFS of the display and input family. A draw is its recorded plots and then a write of VF, so its flag and its
effect on a display are read off the recorded calls; a key skip is a skip from the state that recorded its one call. -/

namespace Sys2Proof.Machine

open Sys2Proof.Claims

/-! ### The answers of a draw -/

/-- The OR that a draw computes is the one over the answers in the record (R170). -/
theorem anyCollides_eq_any (k : Nat) (ps : List Pixel) :
    anyCollides k ps = (answeredPlots k ps).any answeredCollided := by
  induction ps generalizing k with
  | nil => rfl
  | cons p ps ih => rw [anyCollides, ih, answeredPlots, List.any_cons, answeredCollided]

theorem toNat_collisionFlag_anyCollides (k : Nat) (ps : List Pixel) :
    (collisionFlag (anyCollides k ps)).toNat = if (answeredPlots k ps).any answeredCollided then 1 else 0 := by
  rw [anyCollides_eq_any, collisionFlag, toNat_flagByte, Bool.toNat, Bool.cond_eq_ite]

/-! ### The two ends of a draw -/

/-- The state in which a draw that raised nothing has made its plots. -/
def State.plotted (s : State) (x y n : Nib) : State :=
  { s with calls := s.calls ++ answeredPlots s.calls.length (drawnPixels s x y n) }

theorem exec_drw_past {s : State} {x y n : Nib} (hi : s.i.toNat ≤ 0xFFF)
    (h : n.toNat > 0 ∧ s.i.toNat + n.toNat - 1 > 0xFFF) :
    exec (.drw x y n) s = .next (s.halt .addressError 0x1000) := by
  obtain ⟨hrows, hpast⟩ := h
  have hrange : spriteRangeError s.i n = some 0x1000 :=
    (spriteRangeError_eq_some s.i n 0x1000).mpr ⟨hrows, hpast, by omega⟩
  rw [exec_drw, hrange]

theorem exec_drw_inRange {s : State} {n : Nib} (x y : Nib) (h : spriteRangeError s.i n = none) :
    exec (.drw x y n) s =
      .next ((s.plotted x y n).setVF
        (collisionFlag (anyCollides s.calls.length (drawnPixels s x y n)))).advance := by
  rw [exec_drw, h]
  rfl

/-- Settles O24: out of range a draw raises before any plot; in range it writes VF on the state that recorded the plots
of R170, whose answers it ORed. -/
theorem drawMakesTheSpritePlotsAndOrsTheAnswers : Obligations.DrawMakesTheSpritePlotsAndOrsTheAnswers := by
  refine fun x y n => ⟨decodeWord_encode (.drw x y n), fun s hi => ⟨exec_drw_past hi, fun h => ?_⟩⟩
  have hexec := exec_drw_inRange x y ((spriteRangeError_eq_none s.i n).mpr h)
  obtain ⟨hflag, hregs, hpc, -⟩ := (s.plotted x y n).setV_advance_writesReg 0xF#4
    (collisionFlag (anyCollides s.calls.length (drawnPixels s x y n)))
  rw [toNat_collisionFlag_anyCollides] at hflag
  refine ⟨_, _, hexec, rfl, ?_, hflag, hregs, hpc, ?_⟩
  · rw [map_plotArgs_answeredPlots, map_args_drawnPixels]
  · apply UnchangedBut.of_fields <;> simp [State.plotted]

/-! ### What a draw does to a display -/

/-- A display flips its pixels by what is plotted alone: neither the pixel before nor the answers (`k`, `j`) matter
(R216). -/
theorem displayPixel_answeredPlots (lit : Bool) (k j : Nat) (ps : List Pixel) (px py : Nat) :
    displayPixel lit (answeredPlots k ps) px py = (lit ^^ displayPixel false (answeredPlots j ps) px py) := by
  induction ps generalizing lit k j with
  | nil => exact (Bool.xor_false lit).symm
  | cons p ps ih =>
    have hcons (lit : Bool) (k : Nat) : displayPixel lit (answeredPlots k (p :: ps)) px py =
        displayPixel (if p.x = px ∧ p.y = py then lit ^^ p.on else lit) (answeredPlots (k + 1) ps) px py := rfl
    rw [hcons, hcons, ih _ _ 0, ih _ (j + 1) 0]
    split
    · rw [Bool.false_xor, Bool.xor_assoc]
    · rw [Bool.false_xor]

theorem displayPixel_append (lit : Bool) (before after : List PortCall) (px py : Nat) :
    displayPixel lit (before ++ after) px py = displayPixel (displayPixel lit before px py) after px py :=
  List.foldl_append

/-- The pixels plotted twice restore every pixel of a display, whatever it answers. -/
theorem displayPixel_answeredPlots_twice (lit : Bool) (k j : Nat) (ps : List Pixel) (px py : Nat) :
    displayPixel lit (answeredPlots k ps ++ answeredPlots j ps) px py = lit := by
  rw [displayPixel_append, displayPixel_answeredPlots _ j 0, displayPixel_answeredPlots lit k 0, Bool.xor_assoc,
    Bool.xor_self, Bool.xor_false]

/-- The pixels of a draw depend only on the configuration, I, the two registers and the bytes of memory. -/
theorem drawnPixels_congr {s u : State} {x y : Nib} (n : Nib) (hcfg : u.cfg = s.cfg) (hi : u.i = s.i)
    (hx : u.getV x = s.getV x) (hy : u.getV y = s.getV y) (hmem : ∀ a, u.mem.read a = s.mem.read a) :
    drawnPixels u x y n = drawnPixels s x y n := by
  simp only [drawnPixels, spritePixels_loadBytes, hcfg, hi, hx, hy, hmem]

/-- The port calls of a draw, whichever way it ends. -/
theorem calls_of_exec_drw {s t : State} {x y n : Nib} (h : exec (.drw x y n) s = .next t) :
    t.calls = s.calls ++
      if spriteRangeError s.i n = none then answeredPlots s.calls.length (drawnPixels s x y n) else [] := by
  cases hrange : spriteRangeError s.i n with
  | none =>
    rw [exec_drw_inRange x y hrange] at h
    cases h
    rfl
  | some a =>
    rw [exec_drw, hrange] at h
    cases h
    exact (List.append_nil s.calls).symm

/-- Settles O27: either both draws raise and make no call, or both plot the same pixels (R170, R216). -/
theorem drawingASpriteTwiceRestoresTheDisplay : Obligations.DrawingASpriteTwiceRestoresTheDisplay := by
  intro s₁ t₁ s₂ t₂ x y n h₁ h₂ hcalls hcfg hi hx hy hmem px py
  rw [calls_of_exec_drw h₂, hcalls, calls_of_exec_drw h₁, hi, drawnPixels_congr n hcfg hi hx hy hmem]
  split
  · rw [List.append_assoc, displayPixel_append, displayPixel_answeredPlots_twice]
  · rw [List.append_nil, List.append_nil]

/-! ### Key skips -/

/-- A skip after a recorded call changes PC and the record alone. -/
theorem State.record_skipIf_skipping (s : State) (call : PortCall) {b : Bool} {c : Prop} [Decidable c]
    (hb : b = true ↔ c) : Skipping c [.calls] s ((s.record call).skipIf b) := by
  refine ⟨State.toNat_skipIf_pc_of_iff rfl hb, ?_⟩
  apply UnchangedBut.of_fields <;> simp

/-- Settles O28: both ask about the low nibble of `V[x]` in their one call, and skip on its answer or its negation
(R171, R172). -/
theorem keySkipsAskOnceAndSkipOnTheAnswer : Obligations.KeySkipsAskOnceAndSkipOnTheAnswer := by
  refine fun x => ⟨decodeWord_wordX rfl rfl, decodeWord_wordX rfl rfl, fun s => ⟨?_, ?_⟩⟩
  · exact ⟨_, _, _, exec_skp x s, rfl, toNat_lowNibble _, s.record_skipIf_skipping _ Iff.rfl⟩
  · exact ⟨_, _, _, exec_sknp x s, rfl, toNat_lowNibble _, s.record_skipIf_skipping _ (Bool.not_eq_true' _).to_iff⟩

end Sys2Proof.Machine
end

section
/-! PROOFS of the timer and memory family. Each instruction is one write and then the sequential PC update, so a frame
of the write is a frame of the instruction; the three block instructions pass or fail one range check before any
access. -/

namespace Sys2Proof.Machine

open Sys2Proof.Claims

/-! ### The sequential end of an instruction -/

/-- What the state `u` before the PC update left unchanged is unchanged after it (R104). -/
theorem State.advance_sequential {ps : List Part} {s u : State} (h : UnchangedBut ps s u) (hpc : .pc ∉ ps) :
    Sequential ps s u.advance := by
  refine ⟨State.toNat_advance_pc (h .pc hpc), fun p hp => ?_⟩
  obtain ⟨hne, hps⟩ := not_or.mp (mt List.mem_cons.mpr hp)
  cases p with
  | pc => exact absurd rfl hne
  | mem | v | i | sp | stack | dt | st | es | calls | cfg => exact h _ hps

theorem State.setDT_unchangedBut (s : State) (b : Byte) : UnchangedBut [.dt] s (s.setDT b) := by
  apply UnchangedBut.of_fields <;> simp

theorem State.setST_unchangedBut (s : State) (b : Byte) : UnchangedBut [.st] s (s.setST b) := by
  apply UnchangedBut.of_fields <;> simp

/-! ### Timers and the key wait -/

/-- Settles O29: one register or timer write each; `sound_active` is computed from the new ST (R180, R182, R183). -/
theorem timerTransfers : Obligations.TimerTransfers := by
  refine fun x => ⟨decodeWord_wordX rfl rfl, decodeWord_wordX rfl rfl, decodeWord_wordX rfl rfl,
    fun s => ⟨?_, ?_, ?_⟩⟩
  · exact ⟨_, exec_ldVxDt x s, s.setV_advance_writesReg x s.dt⟩
  · exact ⟨_, exec_ldDtVx x s, rfl, State.advance_sequential (s.setDT_unchangedBut _) (by decide)⟩
  · exact ⟨_, exec_ldStVx x s, rfl, decide_eq_true_iff,
      State.advance_sequential (s.setST_unchangedBut _) (by decide)⟩

/-- A tick takes a timer down by one and stops at zero, as a natural number does (R210). -/
theorem toNat_decrementTimer (b : Byte) : (decrementTimer b).toNat = b.toNat - 1 := by
  unfold decrementTimer
  split
  · next hpos => exact toNat_sub_one b hpos
  · omega

theorem perform_resumeKey_waiting (k : Nib) {s : State} {x : Nib} (hes : s.es = .awaitingKey x) :
    perform (.resumeKey k) s = .next (.ok, { (s.setV x (k.setWidth 8)).advance with es := .idle }) := by
  simp only [perform, performResume, resumeKey_waiting k x s hes, if_true]

/-- Settles O30: the wait holds the step, not the tick, and the key that ends it is a register write from the state
before the wait (R181, R213). -/
theorem keyWaitPausesAndResumeCompletesIt : Obligations.KeyWaitPausesAndResumeCompletesIt := by
  refine fun x => ⟨decodeWord_wordX rfl rfl, fun s => ⟨exec_ldVxK x s, step_awaiting _ x rfl, ?_, fun k => ?_⟩⟩
  · refine ⟨_, rfl, toNat_decrementTimer s.dt, toNat_decrementTimer s.st, rfl, ?_⟩
    apply UnchangedBut.of_fields <;> simp [tickTimers]
  · obtain ⟨hx, hregs, hpc, -⟩ := s.setV_advance_writesReg x (k.setWidth 8)
    rw [BitVec.toNat_setWidth_of_le (by decide)] at hx
    refine ⟨_, perform_resumeKey_waiting k rfl, rfl, hx, hregs, hpc, ?_⟩
    apply UnchangedBut.of_fields <;> simp

/-! ### The range check of a block at I -/

/-- With I inside memory the address that a failed check carries is always 0x1000 (R54). -/
theorem rangeError_past_of_le {addr n : Nat} (haddr : addr ≤ 0xFFF) (h : 0xFFF < addr + n - 1) :
    rangeError addr n = some 0x1000 := by
  rw [rangeError_past h, Nat.max_eq_right (by omega)]

/-! ### BCD -/

/-- After a byte's digits are stored, the byte at `addr + j` is digit `j`, whose number `d` fits a byte (R186). -/
theorem toNat_read_storeBytes_bcdDigits {m : Memory} (hm : m.wf = true) {addr j d : Nat} {b : Byte}
    (h : addr + 2 ≤ 0xFFF) (hj : (bcdDigits b)[j]? = some (BitVec.ofNat 8 d)) (hd : d ≤ 9) :
    ((m.storeBytes addr (bcdDigits b)).read (addr + j)).toNat = d := by
  obtain ⟨hlt, hj⟩ := List.getElem?_eq_some_iff.mp hj
  rw [Memory.read_storeBytes_inside hm addr _ (by rw [length_bcdDigits, lastAddress]; omega) j hlt, hj,
    BitVec.toNat_ofNat]
  omega

/-- Settles O31: past 0xFFF the range check raises; in range the three digits are one block store (R186). -/
theorem bcdStoresThreeDigits : Obligations.BcdStoresThreeDigits := by
  refine fun x => ⟨decodeWord_wordX rfl rfl, fun s hi hm => ⟨fun hpast => ?_, fun hin => ?_⟩⟩
  · rw [exec_ldB, rangeError_past_of_le hi hpast]
    rfl
  · have hv := (s.getV x).isLt
    rw [exec_ldB, (rangeError_eq_none s.i.toNat 3).mpr hin]
    refine ⟨_, rfl, ?_, ?_, ?_, fun a ha => ?_, State.advance_sequential (s.setMem_unchangedBut _) (by decide)⟩
    · exact toNat_read_storeBytes_bcdDigits (j := 0) hm hin rfl (by omega)
    · exact toNat_read_storeBytes_bcdDigits (j := 1) hm hin rfl (by omega)
    · exact toNat_read_storeBytes_bcdDigits (j := 2) hm hin rfl (by omega)
    · exact s.mem.read_storeBytes_outside s.i.toNat a _ (by rw [length_bcdDigits]; omega)

/-! ### Register blocks -/

/-- Under `LOADSTORE_INCREMENTS_I` a block transfer takes I past its block, modulo 4096 (R187, R188). -/
theorem State.toNat_blockAdvanceI_i (s : State) (x : Nib) : (s.blockAdvanceI x).i.toNat =
    if s.cfg.loadstoreIncrementsI then (s.i.toNat + x.toNat + 1) % 4096 else s.i.toNat := by
  rw [State.blockAdvanceI_i]
  split
  · rw [toNat_mask12, BitVec.toNat_add, BitVec.toNat_ofNat, blockLength]
    omega
  · rfl

/-- The optional update of I adds I to the frame of the transfer before it. -/
theorem State.blockAdvanceI_unchangedBut {ps : List Part} {s u : State} (x : Nib) (h : UnchangedBut ps s u) :
    UnchangedBut (ps ++ [.i]) s (u.blockAdvanceI x) := by
  intro p hp
  obtain ⟨hps, hi⟩ := not_or.mp (mt List.mem_append.mpr hp)
  have hp := h p hps
  cases p with
  | i => exact absurd (List.mem_singleton_self _) hi
  | mem | v | pc | sp | stack | dt | st | es | calls | cfg => simpa [Part.same] using hp

/-- Settles O32: past 0xFFF the range check raises; in range the registers are one block store (R187). -/
theorem storeBlockWritesRegistersToMemory : Obligations.StoreBlockWritesRegistersToMemory := by
  refine fun x => ⟨decodeWord_wordX rfl rfl, fun s hi hm => ⟨fun hpast => ?_, fun hin => ?_⟩⟩
  · rw [exec_ldMemVx, rangeError_past_of_le hi hpast]
    rfl
  · rw [exec_ldMemVx, (rangeError_eq_none s.i.toNat (x.toNat + 1)).mpr hin]
    have hframe := State.blockAdvanceI_unchangedBut x
      (s.setMem_unchangedBut (s.mem.storeBytes s.i.toNat (blockRegs s x)))
    refine ⟨_, rfl, fun j hj => ?_, fun a ha => ?_, State.toNat_blockAdvanceI_i _ x,
      State.advance_sequential hframe (by decide)⟩
    · rw [State.advance_mem, State.blockAdvanceI_mem, State.setMem_mem]
      exact read_storeBytes_blockRegs hm hin hj
    · rw [State.advance_mem, State.blockAdvanceI_mem, State.setMem_mem]
      exact s.mem.read_storeBytes_outside s.i.toNat a _ (by rw [length_blockRegs]; omega)

theorem State.setRegs_unchangedBut (s : State) (v : Vector Byte 16) : UnchangedBut [.v] s { s with v := v } := by
  apply UnchangedBut.of_fields <;> simp

/-- Settles O33: past 0xFFF the range check raises; in range the loaded registers are `V[0]` to `V[x]` (R188). -/
theorem loadBlockReadsRegistersFromMemory : Obligations.LoadBlockReadsRegistersFromMemory := by
  refine fun x => ⟨decodeWord_wordX rfl rfl, fun s hi => ⟨fun hpast => ?_, fun hin => ?_⟩⟩
  · rw [exec_ldVxMem, rangeError_past_of_le hi hpast]
    rfl
  · rw [exec_ldVxMem, (rangeError_eq_none s.i.toNat (x.toNat + 1)).mpr hin]
    have hframe := State.blockAdvanceI_unchangedBut x
      (s.setRegs_unchangedBut (loadRegs s.v s.mem s.i.toNat (x.toNat + 1)))
    refine ⟨_, rfl, fun j => ?_, State.toNat_blockAdvanceI_i _ x, State.advance_sequential hframe (by decide)⟩
    rw [State.advance_getV, State.blockAdvanceI_getV, State.getV, getElem_loadRegs _ _ _ _ _ j.isLt]
    simp only [Nat.lt_succ_iff, State.getV]

end Sys2Proof.Machine
end

section
/-! PROOFS of the errors and reset family. An operation that raises leaves its state but for ES, and R201 says which
instructions raise; the pixels of a sprite, read off the loop of R170, bound its plots and their answers; the boot
sequence is two block stores over the reset memory, and a placed word is one that the next fetch reads. -/

namespace Sys2Proof.Machine

open Sys2Proof.Claims

/-! ### Timers, and the returns from a halt and from the key wait -/

theorem tickTimers_unchangedBut (s : State) : UnchangedBut [.dt, .st] s (tickTimers s) := by
  apply UnchangedBut.of_fields <;> simp [tickTimers]

/-- Settles O34: a decrement that stops at zero, in each timer. -/
theorem tickDecrementsNonzeroTimers : Obligations.TickDecrementsNonzeroTimers := by
  have stops (b : Byte) : (decrementTimer b).toNat = if b.toNat > 0 then b.toNat - 1 else 0 := by
    rw [toNat_decrementTimer]
    split <;> omega
  exact fun s => ⟨_, rfl, stops s.dt, stops s.st, tickTimers_unchangedBut s⟩

theorem perform_skipAndContinue_halted {s : State} {e : ErrorKind} {info : ErrorInfo} (hes : s.es = .halted e info) :
    perform .skipAndContinue s = .next (.ok, { s.advance with es := .idle }) := by
  simp only [perform, performSkip, skipAndContinue_halted s e info hes, if_true]

theorem perform_skipAndContinue_other {s : State} (hes : ∀ e info, s.es ≠ .halted e info) :
    perform .skipAndContinue s = .next (.notHalted, s) := by
  simp [perform, performSkip, skipAndContinue_other s hes]

theorem perform_resumeKey_other (k : Nib) {s : State} (hes : ∀ x, s.es ≠ .awaitingKey x) :
    perform (.resumeKey k) s = .next (.notAwaiting, s) := by
  simp [perform, performResume, resumeKey_other k s hes]

/-- Settles O35: the return from a halt is the sequential PC update and ES Idle (R206). -/
theorem skipAndContinueLeavesTheHalt : Obligations.SkipAndContinueLeavesTheHalt := by
  refine fun s => ⟨fun e info hes => ?_, perform_skipAndContinue_other⟩
  refine ⟨_, perform_skipAndContinue_halted hes, rfl, State.toNat_advance_pc rfl, ?_⟩
  apply UnchangedBut.of_fields <;> simp

/-- Settles O36: the return from the wait is a register write, the sequential PC update and ES Idle (R213). -/
theorem resumeKeyWritesTheKey : Obligations.ResumeKeyWritesTheKey := by
  refine fun s k => ⟨fun x hes => ?_, perform_resumeKey_other k⟩
  obtain ⟨hx, hregs, hpc, -⟩ := s.setV_advance_writesReg x (k.setWidth 8)
  rw [BitVec.toNat_setWidth_of_le (by decide)] at hx
  refine ⟨_, perform_resumeKey_waiting k hes, rfl, hx, hregs, hpc, ?_⟩
  apply UnchangedBut.of_fields <;> simp

/-- Settles O9: of the operations that can change ES while the core is held, `resume_key` does not where it is
halted. -/
theorem haltIsLeftOnlyBySkipOrReset : Obligations.HaltIsLeftOnlyBySkipOrReset := by
  intro s e info hes
  have hstep := step_halted s e info hes
  refine ⟨hstep, by rw [perform_step_next s s hstep, stepReply, hes],
    ⟨_, rfl, toNat_decrementTimer s.dt, toNat_decrementTimer s.st⟩, ⟨_, rfl, rfl⟩, fun op r t h ht => ?_⟩
  obtain hsame | hreset | ⟨k, rfl⟩ | hskip := perform_es_of_held (by simp [hes]) h
  · exact absurd (hsame.trans hes) ht
  · exact .inl hreset
  · rw [perform_resumeKey_other k (by simp [hes])] at h
    cases h
    exact absurd hes ht
  · exact .inr hskip

/-! ### Errors -/

/-- A step from Idle that leaves the core halted raised at PC: nothing but ES changed (R203). -/
theorem eq_halt_of_step_halted {s t : State} {e : ErrorKind} {info : ErrorInfo} (hes : s.es = .idle)
    (h : step s = .next t) (ht : t.es = .halted e info) : ∃ e value, t = s.halt e value := by
  rw [step_idle s hes] at h
  obtain ⟨a, -, hstep⟩ | ⟨w, _, -, -, hstep⟩ | ⟨w, i, -, -, hstep⟩ := stepIdle_cases s <;> rw [hstep] at h
  · cases h; exact ⟨_, _, rfl⟩
  · cases h; exact ⟨_, _, rfl⟩
  · exact eq_halt_of_exec_halted hes h ht

/-- The replies with which a host access or a load reports an error (R222). -/
def HostReply.IsHostError : HostReply → Prop
  | .addressError _ | .programTooLargeError => True
  | _ => False

theorem stepReply_not_isHostError (s : State) : ¬ (stepReply s).IsHostError := by
  unfold stepReply
  cases s.es <;> exact not_false

/-- A host operation that reports an error changes nothing (R62, R63, R203). -/
theorem eq_of_perform_hostError {op : HostOp} {s t : State} {r : HostReply} (h : perform op s = .next (r, t))
    (hr : r.IsHostError) : t = s := by
  cases op with
  | reset | tickTimers => cases h; exact hr.elim
  | observe => cases h; rfl
  | hostReadByte addr => rw [perform_hostReadByte] at h; cases h; rfl
  | hostWriteByte addr value =>
    rw [perform_hostWriteByte] at h
    split at h
    · cases h; exact hr.elim
    · cases h; rfl
  | loadProgram bytes origin =>
    cases hm : loadProgram s.mem bytes origin with
    | none => rw [perform_loadProgram_none s bytes origin hm] at h; cases h; rfl
    | some m => rw [perform_loadProgram_some s bytes origin m hm] at h; cases h; exact hr.elim
  | step =>
    rw [perform_step_next s t (perform_step_eq_next h)] at h
    cases h
    exact absurd hr (stepReply_not_isHostError t)
  | resumeKey k =>
    simp only [perform, performResume] at h
    cases h
    split at hr <;> exact hr.elim
  | skipAndContinue =>
    simp only [perform, performSkip] at h
    cases h
    split at hr <;> exact hr.elim

/-- Settles O41, from the states that a step error and a host error leave. -/
theorem errorsCommitNothing : Obligations.ErrorsCommitNothing := by
  refine ⟨fun s t e info hes h ht => ?_, fun op s t a h => eq_of_perform_hostError h trivial,
    fun op s t h => eq_of_perform_hostError h trivial⟩
  obtain ⟨e', value, rfl⟩ := eq_halt_of_step_halted hes h ht
  cases ht
  exact ⟨rfl, rfl⟩

/-! ### The table of R201 -/

/-- Where R201 gives an instruction an error, the instruction raises it. -/
theorem exec_of_ruleR201Error {i : Instr} {s : State} {e : ErrorKind} {value : Nat} (hi : s.i.toNat ≤ 0xFFF)
    (h : ruleR201Error i s = some (e, value)) : exec i s = .next (s.halt e value) := by
  cases i with
  | ret =>
    obtain ⟨hempty, ⟨⟩⟩ := Option.ite_none_right_eq_some.mp h
    rw [exec_ret, if_pos hempty]
  | call _ =>
    obtain ⟨hfull, ⟨⟩⟩ := Option.ite_none_right_eq_some.mp h
    rw [exec_call, if_pos hfull]
  | drw _ _ _ =>
    obtain ⟨hpast, ⟨⟩⟩ := Option.ite_none_right_eq_some.mp h
    exact exec_drw_past hi hpast
  | ldB _ =>
    obtain ⟨hpast, ⟨⟩⟩ := Option.ite_none_right_eq_some.mp h
    rw [exec_ldB, rangeError_past_of_le hi hpast]
  | ldMemVx _ =>
    obtain ⟨hpast, ⟨⟩⟩ := Option.ite_none_right_eq_some.mp h
    rw [exec_ldMemVx, rangeError_past_of_le hi hpast]
  | ldVxMem _ =>
    obtain ⟨hpast, ⟨⟩⟩ := Option.ite_none_right_eq_some.mp h
    rw [exec_ldVxMem, rangeError_past_of_le hi hpast]
  | _ => cases h

theorem State.logicResult_es (s : State) (x : Nib) (r : Byte) : (s.logicResult x r).es = s.es :=
  s.logicResult_unchangedBut x r .es (by decide)

/-- Where R201 gives an instruction no error, the instruction commits, and only `Fx0A` leaves Idle. -/
theorem exec_of_ruleR201Error_none {i : Instr} {s : State} (hsp : s.sp.toNat ≤ 16) (hes : s.es = .idle)
    (h : ruleR201Error i s = none) :
    ∃ t, exec i s = .next t ∧ (t.es = .idle ∨ ∃ x, i = .ldVxK x ∧ t.es = .awaitingKey x) := by
  cases i with
  | ret =>
    have hlive : s.sp.toNat ≠ 0 := by simpa [ruleR201Error] using h
    exact ⟨_, exec_ret_live s hlive hsp, .inl hes⟩
  | call nnn =>
    have hfull : s.sp.toNat ≠ 16 := by simpa [ruleR201Error] using h
    exact ⟨_, exec_call_free nnn s (by omega), .inl hes⟩
  | drw x y n =>
    have hin : ¬ (0 < n.toNat ∧ s.i.toNat + n.toNat - 1 > 0xFFF) := fun hpast => by simp [ruleR201Error, hpast] at h
    exact ⟨_, exec_drw_inRange x y ((spriteRangeError_eq_none s.i n).mpr (by omega)), .inl hes⟩
  | ldB x =>
    have hin : s.i.toNat + 2 ≤ 0xFFF := by simpa [ruleR201Error] using h
    rw [exec_ldB, (rangeError_eq_none s.i.toNat 3).mpr hin]
    exact ⟨_, rfl, .inl hes⟩
  | ldMemVx x =>
    have hin : s.i.toNat + x.toNat ≤ 0xFFF := by simpa [ruleR201Error] using h
    rw [exec_ldMemVx, (rangeError_eq_none s.i.toNat (x.toNat + 1)).mpr hin]
    exact ⟨_, rfl, .inl (by simp [hes])⟩
  | ldVxMem x =>
    have hin : s.i.toNat + x.toNat ≤ 0xFFF := by simpa [ruleR201Error] using h
    rw [exec_ldVxMem, (rangeError_eq_none s.i.toNat (x.toNat + 1)).mpr hin]
    exact ⟨_, rfl, .inl (by simp [hes])⟩
  | ldVxK x => exact ⟨_, rfl, .inr ⟨x, rfl, rfl⟩⟩
  | orReg x y => exact ⟨_, exec_orReg x y s, .inl ((s.logicResult_es x _).trans hes)⟩
  | andReg x y => exact ⟨_, exec_andReg x y s, .inl ((s.logicResult_es x _).trans hes)⟩
  | xorReg x y => exact ⟨_, exec_xorReg x y s, .inl ((s.logicResult_es x _).trans hes)⟩
  | _ => exact ⟨_, rfl, .inl hes⟩

/-- Settles O42, by the two answers of the table of R201. -/
theorem everyInstructionCommitsUnlessR201Raises : Obligations.EveryInstructionCommitsUnlessR201Raises := by
  intro i s hs hes
  obtain ⟨-, hi, hsp, -⟩ := (State.inv_iff s).mp hs
  split
  next h => exact exec_of_ruleR201Error hi h
  next h => exact exec_of_ruleR201Error_none hsp hes h

/-! ### The plots of a sprite -/

/-- A pixel that is placed keeps its sprite bit. -/
theorem on_of_placePixel {c : Config} {px py : Nat} {on : Bool} {p : Pixel} (h : placePixel c px py on = some p) :
    p.on = on := by
  unfold placePixel at h
  split at h
  · cases h; rfl
  · obtain ⟨-, ⟨⟩⟩ := Option.ite_none_left_eq_some.mp h
    rfl

/-- On a display of positive size a pixel is placed inside it: the wrap is a remainder, the clip a bound (R170). -/
theorem onScreen_of_placePixel {c : Config} {px py : Nat} {on : Bool} {p : Pixel} (hc : c.wellFormed = true)
    (h : placePixel c px py on = some p) : p.x < c.displayW ∧ p.y < c.displayH := by
  unfold placePixel at h
  split at h
  · obtain ⟨⟨-, hw⟩, hh⟩ : (_ ∧ 0 < c.displayW) ∧ 0 < c.displayH := by simpa [Config.wellFormed] using hc
    cases h
    exact ⟨Nat.mod_lt _ hw, Nat.mod_lt _ hh⟩
  · obtain ⟨hin, ⟨⟩⟩ := Option.ite_none_left_eq_some.mp h
    simpa using hin

/-- A drawn pixel is a bit of one of the sprite's `n` rows, placed somewhere (R170). -/
theorem exists_placePixel_of_mem_drawnPixels {s : State} {x y n : Nib} {p : Pixel} (h : p ∈ drawnPixels s x y n) :
    ∃ r < n.toNat, ∃ px py bit, placePixel s.cfg px py ((s.mem.read (s.i.toNat + r)).getLsbD bit) = some p := by
  rw [drawnPixels, spritePixels_loadBytes, List.mem_flatMap] at h
  obtain ⟨r, hr, hrow⟩ := h
  obtain ⟨col, -, hp⟩ := List.mem_filterMap.mp hrow
  exact ⟨r, List.mem_range.mp hr, _, _, _, hp⟩

/-- Every call of a list of pixels is the plot of one of them. -/
theorem exists_pixel_of_mem_answeredPlots {k : Nat} {ps : List Pixel} {call : PortCall}
    (h : call ∈ answeredPlots k ps) : ∃ p ∈ ps, ∃ collided, call = .plot p.x p.y p.on collided := by
  induction ps generalizing k with
  | nil => cases h
  | cons p ps ih =>
    rcases List.mem_cons.mp h with rfl | hlater
    · exact ⟨p, List.mem_cons_self, _, rfl⟩
    · obtain ⟨q, hq, hcall⟩ := ih hlater
      exact ⟨q, List.mem_cons_of_mem p hq, hcall⟩

/-- Every plot of a draw is inside a display of positive size (R216). -/
theorem onScreen_of_mem_answeredPlots {s : State} {x y n : Nib} {k px py : Nat} {on collided : Bool}
    (hc : s.cfg.wellFormed = true) (h : .plot px py on collided ∈ answeredPlots k (drawnPixels s x y n)) :
    px < s.cfg.displayW ∧ py < s.cfg.displayH := by
  obtain ⟨p, hp, _, ⟨⟩⟩ := exists_pixel_of_mem_answeredPlots h
  obtain ⟨_, -, _, _, _, hplaced⟩ := exists_placePixel_of_mem_drawnPixels hp
  exact onScreen_of_placePixel hc hplaced

/-- Settles O25: only a draw plots, and it plots its sprite's pixels. -/
theorem plotsStayOnTheScreen : Obligations.PlotsStayOnTheScreen := by
  intro i s t hc h
  rcases exec_frame h with ⟨e, value, rfl⟩ | hframe
  · exact ⟨[], (List.append_nil _).symm, by simp⟩
  · cases i with
    | cls | rnd _ _ | skp _ | sknp _ => cases h; exact ⟨_, rfl, by simp⟩
    | drw x y n =>
      refine ⟨_, calls_of_exec_drw h, fun px py on collided hplot => ?_⟩
      split at hplot
      · exact onScreen_of_mem_answeredPlots hc hplot
      · cases hplot
    | _ =>
      have hcalls : t.calls = s.calls := hframe .calls (by simp [writtenParts])
      exact ⟨[], by rw [hcalls, List.append_nil], by simp⟩

/-! ### A blank sprite -/

/-- A conforming display answers collided only where a lit bit is plotted (R216). -/
theorem ConformingDisplay.collided_imp_on {calls : List PortCall} (hd : ConformingDisplay calls) {px py : Nat}
    {on collided : Bool} (h : .plot px py on collided ∈ calls) (hhit : collided = true) : on = true := by
  obtain ⟨before, after, hcalls⟩ := List.append_of_mem h
  rw [hd before px py on collided after hcalls] at hhit
  exact Bool.and_elim_left hhit

/-- Every pixel of a sprite of zero bytes is off (R233). -/
theorem on_eq_false_of_mem_drawnPixels {s : State} {x y n : Nib} {p : Pixel}
    (hblank : ∀ r, r < n.toNat → s.mem.read (s.i.toNat + r) = 0#8) (h : p ∈ drawnPixels s x y n) : p.on = false := by
  obtain ⟨r, hr, _, _, bit, hplaced⟩ := exists_placePixel_of_mem_drawnPixels h
  rw [on_of_placePixel hplaced, hblank r hr, BitVec.getLsbD_zero]

/-- Settles O26: no plot of the sprite is of a lit bit, so none is answered collided and their OR is 0. -/
theorem blankSpriteNeverCollidesOnConformingDisplay : Obligations.BlankSpriteNeverCollidesOnConformingDisplay := by
  intro s t x y n hrange hblank h hd
  rw [exec_drw_inRange x y ((spriteRangeError_eq_none s.i n).mpr (by omega))] at h
  cases h
  have hnone : anyCollides s.calls.length (drawnPixels s x y n) = false := by
    rw [anyCollides_eq_any, List.any_eq_false]
    intro call hcall hhit
    obtain ⟨p, hp, collided, rfl⟩ := exists_pixel_of_mem_answeredPlots hcall
    have hon := hd.collided_imp_on (List.mem_append_right s.calls hcall) hhit
    rw [on_eq_false_of_mem_drawnPixels hblank hp] at hon
    cases hon
  rw [State.advance_getV, State.getV_setVF, if_pos rfl, hnone]
  rfl

/-! ### Reset and boot -/

@[simp] theorem hostReset_mem (s : State) : (hostReset s).mem = [] := rfl

@[simp] theorem State.setMem_setMem (s : State) (m m' : Memory) : (s.setMem m).setMem m' = s.setMem m' := rfl

/-- Settles O37: the reset values read off the state that reset answers (R37). -/
theorem resetLeavesTheResetValues : Obligations.ResetLeavesTheResetValues := by
  have regs (s : State) (j : Nib) : (hostReset s).getV j = 0#8 := Vector.getElem_replicate _
  have stack (s : State) (j : Nat) (hj : j < 16) : (hostReset s).stack[j]? = some 0#16 := by
    rw [Vector.getElem?_eq_getElem hj]
    exact congrArg some (Vector.getElem_replicate hj)
  exact ⟨fun s => ⟨_, rfl, fun _ => rfl, regs s, rfl, rfl, rfl, stack s, rfl, rfl, rfl, rfl, rfl⟩, rfl, _, rfl, rfl⟩

/-- A program that fits is one block store, whether or not it is empty (R63). -/
theorem loadProgram_fits (m : Memory) {bytes : List Byte} {origin : Nat} (h : origin + bytes.length ≤ 0x1000) :
    loadProgram m bytes origin = some (m.storeBytes origin bytes) := by
  rcases Nat.eq_zero_or_pos bytes.length with hempty | hpos
  · rw [loadProgram_empty m origin hempty, List.length_eq_zero_iff.mp hempty, Memory.storeBytes]
  · exact loadProgram_inRange m hpos (by omega)

/-- In a run, a load that fits is a block store before the rest of the run. -/
theorem runOps_loadProgram_fits {bytes : List Byte} {origin : Nat} (ops : List HostOp) (s : State)
    (h : origin + bytes.length ≤ 0x1000) :
    runOps (.loadProgram bytes origin :: ops) s = runOps ops (s.setMem (s.mem.storeBytes origin bytes)) :=
  runOps_cons _ ops s _ _ (perform_loadProgram_some s bytes origin _ (loadProgram_fits s.mem h))

/-- Memory after the boot operations before the program: blank, or with the standard font (R232, R234). -/
def fontMemory (c : Config) : Bool → Memory
  | true => Memory.storeBytes [] c.fontBase.toNat standardFont
  | false => []

theorem length_standardFont : standardFont.length = 80 := rfl

theorem Config.font_fits {c : Config} (hc : c.wellFormed = true) :
    c.fontBase.toNat + standardFont.length ≤ 0x1000 := by
  obtain ⟨⟨⟨-, hfont⟩, -⟩, -⟩ : ((_ ∧ c.fontBase.toNat ≤ 0xFB0) ∧ _) ∧ _ := by
    simpa only [Config.wellFormed, Bool.and_eq_true, decide_eq_true_eq] using hc
  rw [length_standardFont]
  omega

theorem wf_fontMemory {c : Config} (hc : c.wellFormed = true) (withFont : Bool) :
    (fontMemory c withFont).wf = true := by
  cases withFont with
  | false => rfl
  | true => rw [fontMemory]; exact Memory.wf_storeBytes Memory.wf_nil _ _ (Config.font_fits hc)

/-- The boot sequence is a reset and two block stores (R232). -/
theorem runOps_bootOps {s : State} {rom : List Byte} (hc : s.cfg.wellFormed = true) (withFont : Bool)
    (hrom : s.cfg.programOrigin.toNat + rom.length ≤ 0x1000) :
    runOps (bootOps s.cfg withFont rom) s =
      .next ((hostReset s).setMem ((fontMemory s.cfg withFont).storeBytes s.cfg.programOrigin.toNat rom)) := by
  have hreset (ops : List HostOp) : runOps (.reset :: ops) s = runOps ops (hostReset s) :=
    runOps_cons _ ops s _ .ok rfl
  cases withFont with
  | false =>
    have hops : bootOps s.cfg false rom = [.reset, .loadProgram rom s.cfg.programOrigin.toNat] := rfl
    rw [hops, hreset, runOps_loadProgram_fits [] _ hrom, runOps_nil, hostReset_mem, fontMemory]
  | true =>
    have hops : bootOps s.cfg true rom = [.reset, .loadProgram standardFont s.cfg.fontBase.toNat,
      .loadProgram rom s.cfg.programOrigin.toNat] := rfl
    rw [hops, hreset, runOps_loadProgram_fits _ _ (Config.font_fits hc), runOps_loadProgram_fits [] _ hrom, runOps_nil,
      State.setMem_setMem, State.setMem_mem, hostReset_mem, fontMemory]

/-- Settles O40: the program is stored last, and outside the font. -/
theorem bootPlacesFontAndProgram : Obligations.BootPlacesFontAndProgram := by
  intro s withFont rom hc hrom hapart
  refine ⟨_, runOps_bootOps hc withFont hrom, rfl, rfl, fun j hj => ?_, fun hfont j hj => ?_⟩
  · exact Memory.read_storeBytes_inside (wf_fontMemory hc withFont) _ rom hrom j hj
  · have hj80 : j < 80 := hj
    subst hfont
    rw [State.setMem_mem, Memory.read_storeBytes_outside _ _ _ _ (by omega), fontMemory]
    exact Memory.read_storeBytes_inside Memory.wf_nil _ _ (Config.font_fits hc) j hj

/-! ### A placed word -/

/-- Where a fetch succeeds, in the terms of `fetch_inRange` (R101). -/
theorem State.fetchable_iff (s : State) :
    s.fetchable = true ↔ s.pc.toNat ≤ 0xFFE ∧ (s.cfg.oddPcFetch = .fault → s.pc.toNat % 2 = 0) := by
  simp [State.fetchable, lastAddress, Nat.lt_succ_iff, imp_iff_not_or]

theorem State.atFetchablePc_fetchable (s : State) : s.atFetchablePc.fetchable = true := by
  unfold State.atFetchablePc
  split
  next h => exact h
  next => exact (State.fetchable_iff _).mpr ⟨by rw [State.setPc_pc]; decide, fun _ => by rw [State.setPc_pc]; rfl⟩

theorem State.atFetchablePc_mem (s : State) : s.atFetchablePc.mem = s.mem := by
  unfold State.atFetchablePc
  split <;> rfl

@[simp] theorem State.placeWord_pc (s : State) (w : Word) : (s.placeWord w).pc = s.pc := rfl

/-- A word placed where a fetch succeeds is the word the fetch gives (R58, R101). -/
theorem fetch_placeWord {s : State} (hm : s.mem.wf = true) (h : s.fetchable = true) (w : Word) :
    fetch (s.placeWord w) = .ok w := by
  obtain ⟨hpc, heven⟩ := (State.fetchable_iff s).mp h
  have hfit : s.pc.toNat + (bytesOfWord w).length ≤ lastAddress + 1 := Nat.add_le_add_right hpc 2
  have hhi : (s.placeWord w).mem.read s.pc.toNat = w.extractLsb' 8 8 :=
    Memory.read_storeBytes_inside hm _ (bytesOfWord w) hfit 0 Nat.zero_lt_two
  have hlo : (s.placeWord w).mem.read (s.pc.toNat + 1) = w.extractLsb' 0 8 :=
    Memory.read_storeBytes_inside hm _ (bytesOfWord w) hfit 1 Nat.one_lt_two
  have hfetch := fetch_inRange (s := s.placeWord w) heven hpc
  rwa [State.placeWord_pc, hhi, hlo, wordOfBytes_bytes] at hfetch

theorem decodeWord_of_decodeTableWord {nbits w : Nat} {i : Instr} (h : decodeTableWord nbits w = some i) :
    decodeWord (tableWord nbits w) = .ok i := by
  rw [decodeTableWord, ← List.append_nil (bytesOfWord _), decode_bytesOfWord] at h
  cases hd : decodeWord (tableWord nbits w) with
  | error e => rw [hd] at h; cases h
  | ok j => rw [hd] at h; cases h; rfl

/-- Settles O51: the placed word is fetched, and the core is Idle to run it. -/
theorem placedWordIsRunByTheNextStep : Obligations.PlacedWordIsRunByTheNextStep := by
  intro s w i hm h
  have hm' : s.atFetchablePc.mem.wf = true := by rwa [State.atFetchablePc_mem]
  exact step_eq_exec rfl (fetch_placeWord hm' s.atFetchablePc_fetchable _) (decodeWord_of_decodeTableWord h)

end Sys2Proof.Machine
end
